-- ==== Sys2Proof/Word.lean ====
section
/-! DEFINITION. The word types of BVRH: 32-bit values (rule R5 `HASH_W`, `POS_W`), bytes, and the 64-bit command
and response words (rule R5 `CMD_W`, `RSP_W`). All are unsigned (rule R7); `+`, `-`, `*` on them wrap modulo the
width (rules R7 and R65), which is what `BitVec` arithmetic does. -/

namespace Sys2Proof

/-- A 32-bit unsigned value: hash, base, power, bit count, byte length, position, CSR value (rules R5, R7). -/
abbrev Word := BitVec 32

/-- An 8-bit byte of `BUF`, or an 8-bit command field (rules R19, R44). -/
abbrev Byte := BitVec 8

/-- A 64-bit command word `CMD[63:0]` (rule R44). -/
abbrev CmdWord := BitVec 64

/-- A 64-bit response word `RSP[63:0]` (rule R45). -/
abbrev RspWord := BitVec 64

end Sys2Proof
end

