-- ==== Sys2Proof/Config.lean ====
section
/-! DEFINITION. What is fixed for the life of the hardware (rule R5), and the values the reset state takes from it.

The spec leaves no value free for a command to return (rule R6, "No command returns an unspecified value"), so this
file holds no free value. The one OPEN parameter, `BV_CAP_BYTES`, and the general parameter `LANES_MAX` are not
constants of this file: every rule is written for all their legal values, and so is the model (`State.capBytes`, and
the length of `State.lanes`; notes/assumptions/1.md). Only `State.reset` fixes them, at the reference values below. -/

namespace Sys2Proof.Config

/-- `BV_CAP_BYTES` of the reset state: rule R5's reference value. DESIGN CHOICE (the spec leaves the parameter
OPEN): unsafe for a claim about `State.reset` alone, log entry 1. -/
def refCapBytes : Word := 65536

/-- `LANES_MAX` "for this hardware" (rules R5 and R20). -/
def refLanesMax : Nat := 3

/-- Rule R5: `BV_CAP_BYTES <= 2^28`. -/
def capLimit : Nat := 2 ^ 28

/-- Rule R5: `LANES_MAX <= 16`, because the CSR numbering leaves 16 numbers per lane array. -/
def lanesLimit : Nat := 16

/-- The identification register's constant (rules R1 and R21). -/
def idValue : Word := 0x42560001

/-- The default family of bases, lanes 0, 1, 2 (rule R26). -/
def defaultBases : List Word := [11, 17, 23]

end Sys2Proof.Config
end

