-- ==== Sys2Proof/Syntax.lean ====
section
/-! DEFINITION. The sixteen commands of BVRH (rule R46), the CSR names (rule R20), the pseudo-instructions
(rule R52) and the assembler's lines (rule R51). An operand has exactly the width of its field (rule R47), so no
term of `Instr` carries an operand its encoding cannot hold. -/

namespace Sys2Proof

/-- The commands, one constructor per row of the opcode table; operands as rule R47 takes them from the word, in
the order of the assembler syntax (rule R51). -/
inductive Instr where
  /-- `BVINIT n` (R55): a zeroed vector of `n` bits. -/
  | bvinit (n : Word)
  /-- `BVRESTORE len` (R56): a zeroed vector of `len` bytes. -/
  | bvrestore (len : Word)
  /-- `BVORB addr, byte` (R57): OR one byte into the buffer. -/
  | bvorb (addr : Word) (byte : Byte)
  /-- `BVRDB addr` (R58): read one byte of the buffer. -/
  | bvrdb (addr : Word)
  /-- `BVSET pos` (R59): set the bit at a raw position. -/
  | bvset (pos : Word)
  /-- `BVTST pos` (R60): test the bit at a raw position. -/
  | bvtst (pos : Word)
  /-- `BVSETM v` (R61): set the bit at `v mod BITCOUNT`. -/
  | bvsetm (v : Word)
  /-- `BVTSTM v` (R62): test the bit at `v mod BITCOUNT`. -/
  | bvtstm (v : Word)
  /-- `HCLR` (R67): empty the window. -/
  | hclr
  /-- `HPUSH cin` (R68): append a byte to the window. -/
  | hpush (cin : Byte)
  /-- `HROLL cin, cout` (R69): slide the window by one byte. -/
  | hroll (cin cout : Byte)
  /-- `HSET` (R76): set the bit of every active lane. -/
  | hset
  /-- `HTST` (R77): test the bit of every active lane. -/
  | htst
  /-- `HLOC k` (R78): the position of lane `k`. -/
  | hloc (k : Byte)
  /-- `CSRR csr` (R82): read a register. -/
  | csrr (csr : Byte)
  /-- `CSRW csr, value` (R83): write a register. -/
  | csrw (csr : Byte) (value : Word)
  deriving DecidableEq, Repr

/-- The names of the CSR map (rule R20). A lane register's index is the low digit of its number; whether the lane
exists depends on `LANES_MAX`. -/
inductive Csr where
  | id
  | cap
  | bitCount
  | byteLen
  | nlanes
  | cnt
  | err
  | lanesMax
  | hbase (k : Nat)
  | hpow (k : Nat)
  | hash (k : Nat)
  deriving DecidableEq, Repr

/-- The pseudo-instructions (rule R52). They have no encoding of their own. A lane index is one of the sixteen that
the CSR numbering has room for (rules R5, R20). DESIGN CHOICE: the spec does not say what `HSETP` or `HRD` of a
greater index is, and here there is no such pseudo-instruction (log entry 14). -/
inductive Pseudo where
  | hsetp (k : Fin 16) (p : Word)
  | hsetn (n : Word)
  | hrd (k : Fin 16)
  | hpushs (bytes : List Byte)
  | hashof (bytes : List Byte)
  | add (bytes : List Byte)
  | existsOf (bytes : List Byte)
  deriving DecidableEq, Repr

/-- An operand as the assembler writes it (rule R51): a number; a quoted character, for a byte operand; a CSR's name,
for a CSR operand. Decode.lean says which operand takes which. -/
inductive AsmOperand where
  | num (n : Nat)
  | chr (c : Char)
  | name (c : Csr)
  deriving DecidableEq, Repr

/-- A line of the assembler (rule R51): a mnemonic and its operands in order. -/
structure AsmLine where
  mnemonic : String
  operands : List AsmOperand
  deriving DecidableEq, Repr

end Sys2Proof
end

