-- ==== Sys2Proof/WellFormed.lean ====
section
/-! DEFINITION. Which instructions and which command words are well formed: the opcode table of rule R46, row by
row, as mask and match, and the word check rule R48 makes with it. It is written apart from the decoder, which works
field by field; that the two agree is a statement of the package. -/

namespace Sys2Proof

/-- A row of the opcode table: the word `w` is the row's command exactly when `w & mask = match` (rule R46). -/
structure OpRow where
  mnemonic : String
  pattern : CmdWord
  mask : CmdWord
  deriving DecidableEq, Repr

/-- The row's own test (rule R46). -/
def OpRow.covers (r : OpRow) (w : CmdWord) : Bool := w &&& r.mask == r.pattern

/-- The bit-vector rows of rule R46. -/
def bitVectorRows : List OpRow :=
  [⟨"BVINIT", 0x0100000000000000, 0xFFFFFFFF00000000⟩,
   ⟨"BVRESTORE", 0x0200000000000000, 0xFFFFFFFF00000000⟩,
   ⟨"BVORB", 0x0300000000000000, 0xFF00FFFF00000000⟩,
   ⟨"BVRDB", 0x0400000000000000, 0xFFFFFFFF00000000⟩,
   ⟨"BVSET", 0x1000000000000000, 0xFFFFFFFF00000000⟩,
   ⟨"BVTST", 0x1100000000000000, 0xFFFFFFFF00000000⟩,
   ⟨"BVSETM", 0x1200000000000000, 0xFFFFFFFF00000000⟩,
   ⟨"BVTSTM", 0x1300000000000000, 0xFFFFFFFF00000000⟩]

/-- The engine, coupling and system rows of rule R46. -/
def engineRows : List OpRow :=
  [⟨"HCLR", 0x2000000000000000, 0xFFFFFFFFFFFFFFFF⟩,
   ⟨"HPUSH", 0x2100000000000000, 0xFFFFFFFFFFFFFF00⟩,
   ⟨"HROLL", 0x2200000000000000, 0xFFFFFFFFFFFF0000⟩,
   ⟨"HSET", 0x3000000000000000, 0xFFFFFFFFFFFFFFFF⟩,
   ⟨"HTST", 0x3100000000000000, 0xFFFFFFFFFFFFFFFF⟩,
   ⟨"HLOC", 0x3200000000000000, 0xFF00FFFFFFFFFFFF⟩,
   ⟨"CSRR", 0x4000000000000000, 0xFF00FFFFFFFFFFFF⟩,
   ⟨"CSRW", 0x4100000000000000, 0xFF00FFFF00000000⟩]

/-- The opcode table (rule R46). -/
def opRows : List OpRow := bitVectorRows ++ engineRows

/-- A command word is well formed when it matches a row; every other word is illegal (rule R48). -/
def wordWellFormed (w : CmdWord) : Bool := opRows.any fun r => r.covers w

/-- An instruction is well formed when each operand fits its field (rule R47). The operand types are the fields'
own widths, so every term is; an operand out of range for the current state is no encoding error (rule R48, last
paragraph). -/
def Instr.wellFormed : Instr → Bool
  | .bvinit _ => true
  | .bvrestore _ => true
  | .bvorb _ _ => true
  | .bvrdb _ => true
  | .bvset _ => true
  | .bvtst _ => true
  | .bvsetm _ => true
  | .bvtstm _ => true
  | .hclr => true
  | .hpush _ => true
  | .hroll _ _ => true
  | .hset => true
  | .htst => true
  | .hloc _ => true
  | .csrr _ => true
  | .csrw _ _ => true

end Sys2Proof
end

