-- ==== Sys2Proof/Decode.lean ====
section
/-! DEFINITION. From command words to instructions and back (rules R44, R46 to R48), the host's two views of the
decoder, and the expansion of the pseudo-instructions (rule R52). Decoding is total and looks at the word only
(rule R48). -/

namespace Sys2Proof

/-! ### Fields of the one command format (rule R44) -/

/-- `OP`, bits 63:56. -/
def CmdWord.op (w : CmdWord) : Byte := w.extractLsb' 56 8

/-- `A`, bits 55:48. -/
def CmdWord.a (w : CmdWord) : Byte := w.extractLsb' 48 8

/-- `RSV`, bits 47:32. -/
def CmdWord.rsv (w : CmdWord) : BitVec 16 := w.extractLsb' 32 16

/-- `B`, bits 31:0. -/
def CmdWord.b (w : CmdWord) : Word := w.extractLsb' 0 32

/-- `CMD = OP ++ A ++ RSV ++ B` with `RSV = 0` (rule R44). -/
def CmdWord.mk (op a : Byte) (b : Word) : CmdWord := op ++ a ++ 0#16 ++ b

/-- `B[7:0]` (rule R47). -/
def lowByte (b : Word) : Byte := b.extractLsb' 0 8

/-- `B[15:8]` (rule R47). -/
def secondByte (b : Word) : Byte := b.extractLsb' 8 8

/-- `B[31:8]`, which `HPUSH` requires to be 0 (rules R46, R48). -/
def bitsAbove8 (b : Word) : BitVec 24 := b.extractLsb' 8 24

/-- `B[31:16]`, which `HROLL` requires to be 0 (rules R46, R48). -/
def bitsAbove16 (b : Word) : BitVec 16 := b.extractLsb' 16 16

/-- `i`, where the must-be-zero check holds; no instruction where it fails (rule R48). -/
def whenZero (check : Bool) (i : Instr) : Option Instr := if check then some i else none

/-- The command that `OP`, `A` and `B` name, or none (rules R46 to R48; `RSV` is checked by `decode`). -/
def decodeFields (op a : Byte) (b : Word) : Option Instr :=
  if op = 0x01 then whenZero (a == 0) (.bvinit b)
  else if op = 0x02 then whenZero (a == 0) (.bvrestore b)
  else if op = 0x03 then some (.bvorb b a)
  else if op = 0x04 then whenZero (a == 0) (.bvrdb b)
  else if op = 0x10 then whenZero (a == 0) (.bvset b)
  else if op = 0x11 then whenZero (a == 0) (.bvtst b)
  else if op = 0x12 then whenZero (a == 0) (.bvsetm b)
  else if op = 0x13 then whenZero (a == 0) (.bvtstm b)
  else if op = 0x20 then whenZero (a == 0 && b == 0) .hclr
  else if op = 0x21 then whenZero (a == 0 && bitsAbove8 b == 0) (.hpush (lowByte b))
  else if op = 0x22 then whenZero (a == 0 && bitsAbove16 b == 0) (.hroll (lowByte b) (secondByte b))
  else if op = 0x30 then whenZero (a == 0 && b == 0) .hset
  else if op = 0x31 then whenZero (a == 0 && b == 0) .htst
  else if op = 0x32 then whenZero (b == 0) (.hloc a)
  else if op = 0x40 then whenZero (b == 0) (.csrr a)
  else if op = 0x41 then some (.csrw a b)
  else none

/-- The decoder: total on all `2^64` words; `none` is an illegal word (rule R48). -/
def decode (w : CmdWord) : Option Instr :=
  if CmdWord.rsv w = 0 then
    decodeFields (CmdWord.op w) (CmdWord.a w) (CmdWord.b w)
  else none

/-- The encoder (rules R46, R47 and R51). -/
def encode : Instr → CmdWord
  | .bvinit n => CmdWord.mk 0x01 0 n
  | .bvrestore len => CmdWord.mk 0x02 0 len
  | .bvorb addr byte => CmdWord.mk 0x03 byte addr
  | .bvrdb addr => CmdWord.mk 0x04 0 addr
  | .bvset pos => CmdWord.mk 0x10 0 pos
  | .bvtst pos => CmdWord.mk 0x11 0 pos
  | .bvsetm v => CmdWord.mk 0x12 0 v
  | .bvtstm v => CmdWord.mk 0x13 0 v
  | .hclr => CmdWord.mk 0x20 0 0
  | .hpush cin => CmdWord.mk 0x21 0 (cin.setWidth 32)
  | .hroll cin cout => CmdWord.mk 0x22 0 ((cout ++ cin).setWidth 32)
  | .hset => CmdWord.mk 0x30 0 0
  | .htst => CmdWord.mk 0x31 0 0
  | .hloc k => CmdWord.mk 0x32 k 0
  | .csrr csr => CmdWord.mk 0x40 csr 0
  | .csrw csr value => CmdWord.mk 0x41 csr value

/-- The instruction of the bits `w`, as the host numbers them. A command is one 64-bit number handed over whole
(rule R32), so the table's numbering is the word's own; `w` has no bit at or above `nbits`, and a number of more than
64 bits is no command word (rule R50). -/
def decodeTableWord (_nbits w : Nat) : Option Instr :=
  if w < 2 ^ 64 then decode (BitVec.ofNat 64 w) else none

/-! ### The assembler (rule R51) -/

/-- The number of a CSR name (rule R20); a lane register's index has one hexadecimal digit. -/
def Csr.number : Csr → Option Nat
  | .id => some 0x00
  | .cap => some 0x01
  | .bitCount => some 0x02
  | .byteLen => some 0x03
  | .nlanes => some 0x04
  | .cnt => some 0x05
  | .err => some 0x06
  | .lanesMax => some 0x07
  | .hbase k => if k < 16 then some (0x10 + k) else none
  | .hpow k => if k < 16 then some (0x20 + k) else none
  | .hash k => if k < 16 then some (0x30 + k) else none

/-- The name the assembler writes for a CSR, a lane's index in decimal (rule R51). -/
def Csr.asmName : Csr → String
  | .id => "ID"
  | .cap => "CAP"
  | .bitCount => "BITCOUNT"
  | .byteLen => "BYTELEN"
  | .nlanes => "NLANES"
  | .cnt => "CNT"
  | .err => "ERR"
  | .lanesMax => "LANESMAX"
  | .hbase k => "HBASE" ++ toString k
  | .hpow k => "HPOW" ++ toString k
  | .hash k => "HASH" ++ toString k

/-- A plain operand: a number (rule R51). -/
def AsmOperand.number : AsmOperand → Option Nat
  | .num n => some n
  | .chr _ => none
  | .name _ => none

/-- A byte operand: a number or a quoted ASCII character (rule R51). -/
def AsmOperand.byteNumber : AsmOperand → Option Nat
  | .num n => some n
  | .chr c => if c.toNat < 128 then some c.toNat else none
  | .name _ => none

/-- A CSR operand: a number or a CSR's name (rules R20, R51). -/
def AsmOperand.csrNumber : AsmOperand → Option Nat
  | .num n => some n
  | .chr _ => none
  | .name c => c.number

/-- A number as a field of `w` bits; none where it does not fit (rule R47, "the unsigned value of its field"). That
a line with such an operand, or with an operand of another kind than rule R51 gives it, is no instruction is a DESIGN
CHOICE: the spec says nothing of those lines (log entry 13). -/
def asmField (w : Nat) (n : Option Nat) : Option (BitVec w) :=
  n.bind fun v => if v < 2 ^ w then some (BitVec.ofNat w v) else none

/-- A number operand as a field. -/
def AsmOperand.field (w : Nat) (o : AsmOperand) : Option (BitVec w) := asmField w o.number

/-- A byte operand as its field. -/
def AsmOperand.byteField (o : AsmOperand) : Option Byte := asmField 8 o.byteNumber

/-- A CSR operand as its field. -/
def AsmOperand.csrField (o : AsmOperand) : Option Byte := asmField 8 o.csrNumber

/-- A line without operands (rule R51). -/
def assemble0 (m : String) : Option Instr :=
  if m = "HCLR" then some .hclr
  else if m = "HSET" then some .hset
  else if m = "HTST" then some .htst
  else none

/-- A line of one operand (rule R51). -/
def assemble1 (m : String) (x : AsmOperand) : Option Instr :=
  if m = "BVINIT" then (x.field 32).map .bvinit
  else if m = "BVRESTORE" then (x.field 32).map .bvrestore
  else if m = "BVRDB" then (x.field 32).map .bvrdb
  else if m = "BVSET" then (x.field 32).map .bvset
  else if m = "BVTST" then (x.field 32).map .bvtst
  else if m = "BVSETM" then (x.field 32).map .bvsetm
  else if m = "BVTSTM" then (x.field 32).map .bvtstm
  else if m = "HPUSH" then x.byteField.map .hpush
  else if m = "HLOC" then (x.field 8).map .hloc
  else if m = "CSRR" then x.csrField.map .csrr
  else none

/-- A line of two operands (rule R51). -/
def assemble2 (m : String) (x y : AsmOperand) : Option Instr :=
  if m = "BVORB" then (x.field 32).bind fun addr => y.byteField.map fun byte => .bvorb addr byte
  else if m = "HROLL" then x.byteField.bind fun cin => y.byteField.map fun cout => .hroll cin cout
  else if m = "CSRW" then x.csrField.bind fun csr => (y.field 32).map fun value => .csrw csr value
  else none

/-- The instruction an assembler line stands for (rule R51). -/
def assemble (l : AsmLine) : Option Instr :=
  match l.operands with
  | [] => assemble0 l.mnemonic
  | [x] => assemble1 l.mnemonic x
  | [x, y] => assemble2 l.mnemonic x y
  | _ => none

/-- The line the assembler syntax writes for an instruction, operands as numbers (rule R51). -/
def Instr.asm : Instr → AsmLine
  | .bvinit n => ⟨"BVINIT", [.num n.toNat]⟩
  | .bvrestore len => ⟨"BVRESTORE", [.num len.toNat]⟩
  | .bvorb addr byte => ⟨"BVORB", [.num addr.toNat, .num byte.toNat]⟩
  | .bvrdb addr => ⟨"BVRDB", [.num addr.toNat]⟩
  | .bvset pos => ⟨"BVSET", [.num pos.toNat]⟩
  | .bvtst pos => ⟨"BVTST", [.num pos.toNat]⟩
  | .bvsetm v => ⟨"BVSETM", [.num v.toNat]⟩
  | .bvtstm v => ⟨"BVTSTM", [.num v.toNat]⟩
  | .hclr => ⟨"HCLR", []⟩
  | .hpush cin => ⟨"HPUSH", [.num cin.toNat]⟩
  | .hroll cin cout => ⟨"HROLL", [.num cin.toNat, .num cout.toNat]⟩
  | .hset => ⟨"HSET", []⟩
  | .htst => ⟨"HTST", []⟩
  | .hloc k => ⟨"HLOC", [.num k.toNat]⟩
  | .csrr csr => ⟨"CSRR", [.num csr.toNat]⟩
  | .csrw csr value => ⟨"CSRW", [.num csr.toNat, .num value.toNat]⟩

/-! ### Pseudo-instructions (rule R52) -/

/-- The number of lane `k`'s register in the array that starts at `base` (rule R20). -/
def laneCsr (base : Byte) (k : Fin 16) : Byte := base + BitVec.ofNat 8 k.val

/-- The commands a pseudo-instruction stands for (rule R52). -/
def Pseudo.expand : Pseudo → List Instr
  | .hsetp k p => [.csrw (laneCsr 0x10 k) p]
  | .hsetn n => [.csrw 0x04 n]
  | .hrd k => [.csrr (laneCsr 0x30 k)]
  | .hpushs bytes => bytes.map .hpush
  | .hashof bytes => .hclr :: bytes.map .hpush
  | .add bytes => .hclr :: (bytes.map .hpush ++ [.hset])
  | .existsOf bytes => .hclr :: (bytes.map .hpush ++ [.htst])

end Sys2Proof
end

