-- ==== Sys2Proof/Machine/State.lean ====
section
/-! DEFINITION. The machine's state as plain data (rule R10), the host's port beside it (rules R42, R43, R116), the
reasons a step can stop, and the state after reset (rule R26). -/

namespace Sys2Proof.Machine

/-- The seven error statuses (rule R100). They are answers, not stops: see `raise` in Machine/Ops.lean. -/
inductive ErrCode where
  | illegal
  | range
  | cap
  | zeroSize
  | empty
  | csr
  | value
  deriving DecidableEq, Repr

/-- One hash lane: `HBASE[k]`, `HASH[k]`, `HPOW[k]` (rule R11). -/
structure Lane where
  base : Word
  hash : Word
  pow : Word
  deriving DecidableEq, Repr

/-- What the outside world does at the block's ports, in order: offers a command word that is accepted, takes the
oldest response offered, or holds `rst_n` at 0 for a clock edge (rules R42, R114, R116). -/
inductive HostEvent where
  | command (w : CmdWord)
  | take
  | reset
  deriving DecidableEq, Repr

/-- The buffer's bytes by address, in one canonical form: addresses strictly rising, no byte listed that is equal to
what an unlisted address reads as (`Memory.wf`, Machine/Ops.lean). -/
abbrev Memory := List Host.Cell

/-- Why a step can stop. -/
inductive Fault where
  /-- Raised by the byte access of Machine/Ops.lean (`memRead`, `memWrite`) at an address that is not below
  `BYTELEN`, where no byte exists (rules R8, R33). Every command checks its operand first (rules R38, R53), so no
  state that keeps rule R17's invariant reaches it. Safe: the model stops where the spec gives no effect. -/
  | outsideBuffer (addr : Nat)
  deriving DecidableEq, Repr

/-- Why an instruction has no meaning. -/
inductive Refusal where
  /-- Raised by an arm of `exec` whose instruction is not modelled yet; no arm raises it. Safe. -/
  | notModelled (mnemonic : String)
  deriving DecidableEq, Repr

/-- The machine's state. `LANES_MAX` is the length of `lanes`. -/
structure State where
  /-- `BUF` (rule R19): the bytes of the buffer. -/
  buf : Memory
  /-- `BITCOUNT` (rule R15). -/
  bitCount : Word
  /-- `BYTELEN` (rule R16). -/
  byteLen : Word
  /-- `NLANES` (rule R18). -/
  nlanes : Word
  /-- `CNT` (rule R12). -/
  cnt : Word
  /-- `ERR` (rule R22). -/
  err : Word
  /-- `HBASE[k]`, `HASH[k]`, `HPOW[k]` for `k = 0 .. LANES_MAX-1` (rule R11). -/
  lanes : List Lane
  /-- `BV_CAP_BYTES` (rule R5): a parameter of the machine, which no step writes (log entry 1). -/
  capBytes : Word
  /-- What the host will do next, oldest first (rule R43; log entry 2). -/
  inbox : List HostEvent
  /-- Responses offered and not yet taken, oldest first (rules R43, R116; log entry 3). -/
  rsps : List RspWord
  deriving DecidableEq, Repr

/-- One step's outcome. -/
abbrev Result := Host.Outcome State Fault Refusal

/-- The base of lane `k` after reset: the default family, then 0 (rule R26). -/
def resetBase (k : Nat) : Word := Config.defaultBases.getD k 0

/-- Lane `k` after reset (rule R26). -/
def resetLane (k : Nat) : Lane := { base := resetBase k, hash := 0, pow := 1 }

/-- The reset state of rule R26 of a machine with the given parameters. -/
def State.resetWith (capBytes : Word) (lanesMax : Nat) : State where
  buf := []
  bitCount := 0
  byteLen := 0
  nlanes := BitVec.ofNat 32 (min 3 lanesMax)
  cnt := 0
  err := 0
  lanes := (List.range lanesMax).map resetLane
  capBytes := capBytes
  inbox := []
  rsps := []

/-- The machine right after reset (rule R26), at the reference parameters (log entry 1). -/
def State.reset : State := State.resetWith Config.refCapBytes Config.refLanesMax

end Sys2Proof.Machine
end

