-- ==== Sys2Proof/Machine/Flags.lean ====
section
/-! DEFINITION. The flag computations: the block has no condition codes (rule R14); its one flag-like register is
the sticky `ERR` (rule R22), and a test's answer is a Boolean of the response (rule R45). -/

namespace Sys2Proof.Machine

/-- The status code of an error (rule R100). -/
def ErrCode.number : ErrCode → Nat
  | .illegal => 1
  | .range => 2
  | .cap => 3
  | .zeroSize => 4
  | .empty => 5
  | .csr => 6
  | .value => 7

/-- The `ST` field of an error's response (rules R45, R100). -/
def ErrCode.status (e : ErrCode) : Byte := BitVec.ofNat 8 e.number

/-- The bit of `ERR` of an error's own number (rule R22). -/
def ErrCode.bit (e : ErrCode) : Word := 1#32 <<< e.number

/-- `ERR[c] <- 1`: sticky, every other bit stays (rules R22, R103). -/
def errAfter (e : ErrCode) (err : Word) : Word := err ||| e.bit

/-- A Boolean result: 1 for true and 0 for false (rule R45). -/
def boolData (b : Bool) : Word := if b then 1 else 0

end Sys2Proof.Machine
end

