-- ==== Sys2Proof/Machine/Operands.lean ====
section
/-! DEFINITION. The operand forms (rule R47): what a command computes from an operand field before it touches the
state. A byte is zero-extended (rule R65 (d)), a value is reduced modulo `BITCOUNT` (rules R61, R75), a position
names one bit of one byte (rule R31), a CSR number names a register (rule R20). -/

namespace Sys2Proof.Machine

/-- `ceil8(n)`, as a mathematical integer (rule R7). -/
def ceil8 (n : Nat) : Nat := (n + 7) / 8

/-- `sat32(n)` (rule R7). -/
def sat32 (n : Nat) : Word := BitVec.ofNat 32 (min n (2 ^ 32 - 1))

/-- `zext_32` of a byte (rules R7, R65 (d)). -/
def zext32 (b : Byte) : Word := b.setWidth 32

/-- `pos div 8` (rules R31, R53). -/
def byteIndex (pos : Nat) : Nat := pos / 8

/-- `pos mod 8` (rules R31, R53). -/
def bitOffset (pos : Nat) : Nat := pos % 8

/-- `1 << (pos mod 8)` (rule R53). -/
def bitMask (pos : Nat) : Byte := 1#8 <<< bitOffset pos

/-- `v mod BITCOUNT`, the unsigned remainder; used only where `BITCOUNT` is not 0 (rules R61, R75). -/
def reduced (v bitCount : Word) : Word := v % bitCount

/-- The positions of lanes `0 .. n-1`, in ascending order (rules R75, R76; log entry 6 for the order). -/
def lanePositions (lanes : List Lane) (n : Nat) (bitCount : Word) : List Nat :=
  (lanes.take n).map fun l => (reduced l.hash bitCount).toNat

/-- The scalar registers' numbers, `0x00 .. 0x07` (rule R20). -/
def scalarCsr (lo : Nat) : Option Csr :=
  if lo = 0 then some .id
  else if lo = 1 then some .cap
  else if lo = 2 then some .bitCount
  else if lo = 3 then some .byteLen
  else if lo = 4 then some .nlanes
  else if lo = 5 then some .cnt
  else if lo = 6 then some .err
  else if lo = 7 then some .lanesMax
  else none

/-- The name of a CSR number (rule R20): the high digit chooses the group, the low digit the register or lane.
Whether the lane exists is asked of the state (`csrRead`, Machine/Ops.lean). -/
def csrOfNumber (n : Byte) : Option Csr :=
  if n.toNat / 16 = 0 then scalarCsr (n.toNat % 16)
  else if n.toNat / 16 = 1 then some (.hbase (n.toNat % 16))
  else if n.toNat / 16 = 2 then some (.hpow (n.toNat % 16))
  else if n.toNat / 16 = 3 then some (.hash (n.toNat % 16))
  else none

end Sys2Proof.Machine
end

