-- ==== Sys2Proof/Machine/Ops.lean ====
section
/-! DEFINITION. The named operations the meanings share: the byte memory, the bit primitives, the lane operations,
register access, the two ways a command ends (`respond` and `raise`, rules R8 and R103), and what the ports do.
`raise` is the block's whole exception entry (rule R103): nothing is saved, no mode changes, no handler runs, so
there is no return from an exception to model (rule R107). -/

namespace Sys2Proof.Machine

/-! ### The byte memory (rules R19, R33) -/

namespace Memory

/-- What an unlisted address reads as: every construction zeroes the bytes it brings into range (rules R55, R56,
R115). -/
def background : Byte := 0

/-- The byte at an address. -/
def read : Memory → Nat → Byte
  | [], _ => background
  | c :: m, a => if c.1 = a then c.2 else read m a

/-- A cell put before the first cell of a higher address. -/
def place (a : Nat) (v : Byte) : Memory → Memory
  | [] => [(a, v)]
  | c :: m => if a < c.1 then (a, v) :: c :: m else c :: place a v m

/-- The memory without the cells of one address. -/
def erase (a : Nat) (m : Memory) : Memory := m.filter fun c => c.1 != a

/-- The byte at address `a` set to `v`; a byte equal to the background is not listed. -/
def write (m : Memory) (a : Nat) (v : Byte) : Memory :=
  if v = background then erase a m else place a v (erase a m)

/-- The canonical form: addresses strictly rising, no background byte listed. -/
def wf : Memory → Bool
  | [] => true
  | c :: m => c.2 != background && m.all (fun d => decide (c.1 < d.1)) && wf m

/-- Every listed byte lies below `n`. -/
def below (n : Nat) (m : Memory) : Bool := m.all fun c => decide (c.1 < n)

end Memory

/-- `LANES_MAX` (rule R5): the number of lanes the engine has. -/
def State.lanesMax (s : State) : Nat := s.lanes.length

/-- `MemRead(addr, 1)`, where the byte exists (rules R8, R33). -/
def memRead (s : State) (addr : Nat) : Option Byte :=
  if addr < s.byteLen.toNat then some (Memory.read s.buf addr) else none

/-- `MemWrite(addr, 1, v)`, where the byte exists (rules R8, R33). -/
def memWrite (s : State) (addr : Nat) (v : Byte) : Option State :=
  if addr < s.byteLen.toNat then some { s with buf := Memory.write s.buf addr v } else none

/-- The read-modify-write that ORs a byte in (rules R33, R57). -/
def orByte (s : State) (addr : Nat) (v : Byte) : Option State :=
  (memRead s addr).bind fun b => memWrite s addr (b ||| v)

/-- `setBit(pos)` (rule R53). -/
def setBit (s : State) (pos : Nat) : Option State := orByte s (byteIndex pos) (bitMask pos)

/-- `isBitSet(pos)` (rule R54). -/
def isBitSet (s : State) (pos : Nat) : Option Bool :=
  (memRead s (byteIndex pos)).map fun b => b &&& bitMask pos != 0

/-- `setBit` at each position in turn (rule R76). -/
def setBits : State → List Nat → Option State
  | s, [] => some s
  | s, p :: ps => (setBit s p).bind fun t => setBits t ps

/-- Whether `isBitSet` at every position (rule R77). -/
def allBitsSet (s : State) : List Nat → Option Bool
  | [] => some true
  | p :: ps => (isBitSet s p).bind fun b => (allBitsSet s ps).map fun r => b && r

/-! ### How a command ends (rules R8, R45, R103) -/

/-- `RSP = ST ++ zext_24(0) ++ DATA` (rule R45). -/
def rspWord (st : Byte) (data : Word) : RspWord := st ++ 0#24 ++ data

/-- A response offered behind the ones still waiting (rule R43 (b)). -/
def State.offer (s : State) (r : RspWord) : State := { s with rsps := s.rsps ++ [r] }

/-- `respond(d)`: the command's writes stand and the answer is OK (rule R8). -/
def respond (d : Word) (s : State) : Result := .next (s.offer (rspWord 0 d))

/-- The state after an error answer: the sticky bit, and `ST = c`, `DATA = 0` (rule R103). -/
def State.raised (s : State) (e : ErrCode) : State :=
  { s with err := errAfter e s.err, rsps := s.rsps ++ [rspWord e.status 0] }

/-- `raise <Err>` (rule R103), applied to the state from before the command, so that no write of the command is
kept. The next command is executed normally: there is no handler and no return (rules R103, R107). -/
def raise (e : ErrCode) (s : State) : Result := .next (s.raised e)

/-- The rest of a command after a byte access at `addr`, which stops where no such byte exists (rule R33). -/
def withByte {α : Type} (addr : Nat) (o : Option α) (k : α → Result) : Result :=
  match o with
  | some x => k x
  | none => .fault (.outsideBuffer addr)

/-- The first address of a list of positions at which no byte exists, for the fault's report. -/
def firstOutside (s : State) (ps : List Nat) : Nat :=
  byteIndex ((ps.find? fun p => decide (s.byteLen.toNat ≤ byteIndex p)).getD 0)

/-! ### Construction (rules R55, R56) -/

/-- A new vector of `bits` bits in `bytes` bytes, every byte 0 (rules R19, R55, R56). -/
def State.constructed (s : State) (bits bytes : Word) : State :=
  { s with bitCount := bits, byteLen := bytes, buf := [] }

/-! ### The lanes (rules R66 to R69, R85) -/

/-- The empty window of one lane (rule R67). -/
def Lane.cleared (l : Lane) : Lane := { l with hash := 0, pow := 1 }

/-- One step of the from-scratch evaluation (rule R68); `grown` says that `CNT` was not 0 before it. -/
def Lane.pushed (grown : Bool) (cin : Byte) (l : Lane) : Lane :=
  { l with hash := l.hash * l.base + zext32 cin, pow := if grown then l.pow * l.base else l.pow }

/-- The rolling update (rule R69). -/
def Lane.rolled (cin cout : Byte) (l : Lane) : Lane :=
  { l with hash := (l.hash - zext32 cout * l.pow) * l.base + zext32 cin }

/-- Every lane's window emptied and `CNT` set to 0 (rules R67, R85). -/
def State.windowCleared (s : State) : State := { s with lanes := s.lanes.map Lane.cleared, cnt := 0 }

/-- One byte appended in every lane (rules R66, R68). -/
def State.windowPushed (s : State) (cin : Byte) : State :=
  { s with lanes := s.lanes.map (Lane.pushed (s.cnt != 0) cin), cnt := sat32 (s.cnt.toNat + 1) }

/-- The window slid by one byte in every lane (rules R66, R69). -/
def State.windowRolled (s : State) (cin cout : Byte) : State :=
  { s with lanes := s.lanes.map (Lane.rolled cin cout) }

/-- `HBASE[k] <- value`, and the window of every lane emptied (rule R85). -/
def State.baseInstalled (s : State) (k : Nat) (value : Word) : State :=
  State.windowCleared { s with lanes := s.lanes.modify k fun l => { l with base := value } }

/-! ### Register access (rules R20, R82 to R84) -/

/-- The value of a CSR, where it exists (rules R20, R21). -/
def csrValue (s : State) : Csr → Option Word
  | .id => some Config.idValue
  | .cap => some s.capBytes
  | .bitCount => some s.bitCount
  | .byteLen => some s.byteLen
  | .nlanes => some s.nlanes
  | .cnt => some s.cnt
  | .err => some s.err
  | .lanesMax => some (BitVec.ofNat 32 s.lanesMax)
  | .hbase k => s.lanes[k]?.map Lane.base
  | .hpow k => s.lanes[k]?.map Lane.pow
  | .hash k => s.lanes[k]?.map Lane.hash

/-- The value of the CSR of a number, where the number is in the map (rules R20, R82). -/
def csrRead (s : State) (n : Byte) : Option Word := (csrOfNumber n).bind (csrValue s)

/-- `CSRW NLANES, value` (rule R84). -/
def writeNlanes (value : Word) (s : State) : Result :=
  if value.toNat < 1 ∨ s.lanesMax < value.toNat then raise .value s
  else respond 0 { s with nlanes := value }

/-- `CSRW HBASE<k>, value` (rule R85); a lane that does not exist is no CSR (rule R20). -/
def writeHbase (k : Nat) (value : Word) (s : State) : Result :=
  if k < s.lanesMax then respond 0 (s.baseInstalled k value) else raise .csr s

/-- A write to the named CSR; the read-only ones refuse it (rule R83). -/
def csrWrite (value : Word) (s : State) : Csr → Result
  | .nlanes => writeNlanes value s
  | .hbase k => writeHbase k value s
  | .id => raise .csr s
  | .cap => raise .csr s
  | .bitCount => raise .csr s
  | .byteLen => raise .csr s
  | .cnt => raise .csr s
  | .err => raise .csr s
  | .lanesMax => raise .csr s
  | .hpow _ => raise .csr s
  | .hash _ => raise .csr s

/-! ### The ports (rules R42, R43, R114, R116) -/

/-- An event the host makes next, before those it has planned already. -/
def State.withEvent (s : State) (e : HostEvent) : State := { s with inbox := e :: s.inbox }

/-- The state with the first planned event gone. -/
def State.popped (s : State) : State := { s with inbox := s.inbox.tail }

/-- The oldest response delivered; with none offered, no transfer happens (rules R42, R43 (b)). -/
def State.delivered (s : State) : State := { s with rsps := s.rsps.tail }

/-- The reset event (rules R114, R116): the reset state of the same machine, and every response not yet taken is
withdrawn. What the host does later stays its own affair. -/
def State.wasReset (s : State) : State :=
  { State.resetWith s.capBytes s.lanesMax with inbox := s.inbox }

/-- A word that is no command (rules R48, R103). -/
def illegalWord (s : State) : Result := raise .illegal s

end Sys2Proof.Machine
end

