-- ==== Sys2Proof/Machine/BitVector.lean ====
section
/-! DEFINITION. The meanings of the bit-vector commands (spec/40_bitvector.md). -/

namespace Sys2Proof.Machine

/-- `BVINIT n` (rule R55). -/
def execBvinit (n : Word) (s : State) : Result :=
  if s.capBytes.toNat < ceil8 n.toNat then raise .cap s
  else respond (BitVec.ofNat 32 (ceil8 n.toNat)) (s.constructed n (BitVec.ofNat 32 (ceil8 n.toNat)))

/-- `BVRESTORE len` (rule R56). -/
def execBvrestore (len : Word) (s : State) : Result :=
  if s.capBytes.toNat < len.toNat then raise .cap s
  else respond (8 * len) (s.constructed (8 * len) len)

/-- `BVORB addr, byte` (rule R57). -/
def execBvorb (addr : Word) (byte : Byte) (s : State) : Result :=
  if s.byteLen.toNat ≤ addr.toNat then raise .range s
  else withByte addr.toNat (orByte s addr.toNat byte) fun t => respond 0 t

/-- `BVRDB addr` (rule R58). -/
def execBvrdb (addr : Word) (s : State) : Result :=
  if s.byteLen.toNat ≤ addr.toNat then raise .range s
  else withByte addr.toNat (memRead s addr.toNat) fun b => respond (zext32 b) s

/-- `BVSET pos` (rule R59). -/
def execBvset (pos : Word) (s : State) : Result :=
  if s.bitCount.toNat ≤ pos.toNat then raise .range s
  else withByte (byteIndex pos.toNat) (setBit s pos.toNat) fun t => respond 0 t

/-- `BVTST pos` (rule R60). -/
def execBvtst (pos : Word) (s : State) : Result :=
  if s.bitCount.toNat ≤ pos.toNat then raise .range s
  else withByte (byteIndex pos.toNat) (isBitSet s pos.toNat) fun b => respond (boolData b) s

/-- `BVSETM v` (rule R61). -/
def execBvsetm (v : Word) (s : State) : Result :=
  if s.bitCount = 0 then raise .zeroSize s
  else
    let pos := reduced v s.bitCount
    withByte (byteIndex pos.toNat) (setBit s pos.toNat) fun t => respond pos t

/-- `BVTSTM v` (rule R62). -/
def execBvtstm (v : Word) (s : State) : Result :=
  if s.bitCount = 0 then raise .zeroSize s
  else
    let pos := reduced v s.bitCount
    withByte (byteIndex pos.toNat) (isBitSet s pos.toNat) fun b => respond (boolData b) s

end Sys2Proof.Machine
end

