-- ==== Sys2Proof/Machine/FilterOps.lean ====
section
/-! DEFINITION. The meanings of the coupling commands (spec/42_filter_ops.md). -/

namespace Sys2Proof.Machine

/-- The positions of the active lanes (rules R75, R76). -/
def State.activePositions (s : State) : List Nat := lanePositions s.lanes s.nlanes.toNat s.bitCount

/-- `HSET` (rule R76). -/
def execHset (s : State) : Result :=
  if s.bitCount = 0 then raise .zeroSize s
  else withByte (firstOutside s s.activePositions) (setBits s s.activePositions) fun t => respond 0 t

/-- `HTST` (rule R77). -/
def execHtst (s : State) : Result :=
  if s.bitCount = 0 then raise .zeroSize s
  else withByte (firstOutside s s.activePositions) (allBitsSet s s.activePositions) fun r => respond (boolData r) s

/-- `HLOC k` (rule R78): the lane is checked first, then `BITCOUNT`. -/
def execHloc (k : Byte) (s : State) : Result :=
  match s.lanes[k.toNat]? with
  | none => raise .range s
  | some l => if s.bitCount = 0 then raise .zeroSize s else respond (reduced l.hash s.bitCount) s

end Sys2Proof.Machine
end

