-- ==== Sys2Proof/Machine/HashEngine.lean ====
section
/-! DEFINITION. The meanings of the rolling-hash engine's commands (spec/41_hash_engine.md). -/

namespace Sys2Proof.Machine

/-- `HCLR` (rule R67). -/
def execHclr (s : State) : Result := respond 0 s.windowCleared

/-- `HPUSH cin` (rule R68). -/
def execHpush (cin : Byte) (s : State) : Result := respond 0 (s.windowPushed cin)

/-- `HROLL cin, cout` (rule R69). -/
def execHroll (cin cout : Byte) (s : State) : Result :=
  if s.cnt = 0 then raise .empty s else respond 0 (s.windowRolled cin cout)

end Sys2Proof.Machine
end

