-- ==== Sys2Proof/Machine/System.lean ====
section
/-! DEFINITION. The meanings of the register-access commands (spec/43_system.md). -/

namespace Sys2Proof.Machine

/-- `CSRR csr` (rule R82). -/
def execCsrr (csr : Byte) (s : State) : Result :=
  match csrRead s csr with
  | some v => respond v s
  | none => raise .csr s

/-- `CSRW csr, value` (rules R83 to R85). -/
def execCsrw (csr : Byte) (value : Word) (s : State) : Result :=
  match csrOfNumber csr with
  | some c => csrWrite value s c
  | none => raise .csr s

end Sys2Proof.Machine
end

