-- ==== Sys2Proof/Machine/Dispatch.lean ====
section
/-! DEFINITION. From an instruction to its meaning, one arm per command. -/

namespace Sys2Proof.Machine

def exec (i : Instr) (s : State) : Host.Outcome State Fault Refusal :=
  match i with
  -- the bit-vector commands (spec/40_bitvector.md)
  | .bvinit n => Sys2Proof.Machine.execBvinit n s
  | .bvrestore len => Sys2Proof.Machine.execBvrestore len s
  | .bvorb addr byte => Sys2Proof.Machine.execBvorb addr byte s
  | .bvrdb addr => Sys2Proof.Machine.execBvrdb addr s
  | .bvset pos => Sys2Proof.Machine.execBvset pos s
  | .bvtst pos => Sys2Proof.Machine.execBvtst pos s
  | .bvsetm v => Sys2Proof.Machine.execBvsetm v s
  | .bvtstm v => Sys2Proof.Machine.execBvtstm v s
  -- the rolling-hash engine (spec/41_hash_engine.md)
  | .hclr => Sys2Proof.Machine.execHclr s
  | .hpush cin => Sys2Proof.Machine.execHpush cin s
  | .hroll cin cout => Sys2Proof.Machine.execHroll cin cout s
  -- the coupling commands (spec/42_filter_ops.md)
  | .hset => Sys2Proof.Machine.execHset s
  | .htst => Sys2Proof.Machine.execHtst s
  | .hloc k => Sys2Proof.Machine.execHloc k s
  -- the system commands (spec/43_system.md)
  | .csrr csr => Sys2Proof.Machine.execCsrr csr s
  | .csrw csr value => Sys2Proof.Machine.execCsrw csr value s

end Sys2Proof.Machine
end

