-- ==== Sys2Proof/Machine/Port.lean ====
section
/-! DEFINITION. What one event at the ports does (rules R42, R43, R48, R114, R116); the step calls it. -/

namespace Sys2Proof.Machine

/-- One accepted command word: executed, or answered `ERR_ILLEGAL` (rules R43, R48). -/
def acceptWord (w : CmdWord) (s : State) : Result :=
  match decode w with
  | some i => exec i s
  | none => illegalWord s

/-- One event: a command accepted, the oldest response taken, or a clock edge with `rst_n` at 0. -/
def acceptEvent (e : HostEvent) (s : State) : Result :=
  match e with
  | .command w => acceptWord w s
  | .take => .next s.delivered
  | .reset => .next s.wasReset

/-- The next planned event happens; with none planned the block is idle, and "idleness changes no state"
(rule R113). -/
def runNextEvent (s : State) : Result :=
  match s.inbox with
  | [] => .next s
  | e :: _ => acceptEvent e s.popped

/-- The command word of the host's numbering offered as its very next event. The table's numbering is the word's
own, since a command is one 64-bit number handed over whole (rule R32). -/
def offerWord (s : State) (w : Nat) : State := s.withEvent (.command (BitVec.ofNat 64 w))

end Sys2Proof.Machine
end

