-- ==== Sys2Proof/Machine/Step.lean ====
section
/-! DEFINITION. One step: what the host does next at the ports happens, whole and before anything else (rules R35,
R43). -/

namespace Sys2Proof.Machine

/-- One step of the machine. -/
def step (s : State) : Host.Outcome State Fault Refusal := runNextEvent s

/-- The instruction of the bits `w` offered at the command port as the host's very next event (log entry 4). -/
def State.withFetchWord (s : State) (_nbits w : Nat) : State := offerWord s w

end Sys2Proof.Machine
end

