-- ==== Sys2Proof/Machine/HostSequences.lean ====
section
/-! DEFINITION. The host's reference sequences (spec/44_host_sequences.md): by which commands a host obtains each
filter operation. They are the host's own loops around the machine (rule R88): a sequence answers `none` when the
machine stops or a response is not OK, which ends the sequence's premise "every response `ST = 0`". -/

namespace Sys2Proof.Machine

/-- `ST` of a response word (rule R45). -/
def rspStatus (r : RspWord) : Byte := r.extractLsb' 56 8

/-- `DATA` of a response word (rule R45). -/
def rspData (r : RspWord) : Word := r.extractLsb' 0 32

/-- The newest response, when it says OK. -/
def okAnswer (t : State) : Option Word :=
  t.rsps.getLast?.bind fun r => if rspStatus r = 0 then some (rspData r) else none

/-- `issue X`: the command is accepted before anything else the host has planned, and its response is the newest
one offered (rules R43, R88). -/
def issue (i : Instr) (s : State) : Option (Word × State) :=
  match step (s.withEvent (.command (encode i))) with
  | .next t => (okAnswer t).map fun d => (d, t)
  | .fault _ => none
  | .refused _ => none

/-- Commands issued one after another, their data unused. -/
def issueAll : List Instr → State → Option State
  | [], s => some s
  | i :: is, s => (issue i s).bind fun r => issueAll is r.2

/-- `toCharCodeArray`, one byte per UTF-16 code unit, its low 8 bits (rule R89). -/
def toCharCodeArray (units : List (BitVec 16)) : List Byte := units.map fun u => u.extractLsb' 0 8

/-- `HCLR` and one `HPUSH` per byte: the from-scratch hash (rules R52, R71). -/
def hashCommands (b : List Byte) : List Instr := Pseudo.expand (.hashof b)

/-- `CSRW HBASE<k>, primes[k]` for the lanes from `k` on (rule R93); `setLanes` calls it with 16 bases at most, so
`k` stays below 16. -/
def baseCommands (k : Nat) : List Word → List Instr
  | [] => []
  | p :: ps => .csrw (laneCsr 0x10 (Fin.ofNat 16 k)) p :: baseCommands (k + 1) ps

/-- `set_lanes(primes)` (rule R93). -/
def laneCommands (primes : List Word) : List Instr :=
  .csrw 0x04 (BitVec.ofNat 32 primes.length) :: baseCommands 0 primes

/-- `set_lanes(primes)` (rule R93); a list longer than any engine's lanes cannot be loaded. -/
def setLanes (primes : List Word) (s : State) : Option State :=
  if primes.length ≤ Config.lanesLimit then issueAll (laneCommands primes) s else none

/-- The sizing form (rule R90): the product is the host's, and must fit 32 bits. -/
def constructSizing (bitsPerElement estimatedElementCount : Nat) (primes : List Word) (s : State) : Option State :=
  if bitsPerElement * estimatedElementCount < 2 ^ 32 then
    (setLanes primes s).bind (issueAll [.bvinit (BitVec.ofNat 32 (bitsPerElement * estimatedElementCount))])
  else none

/-- The source's default sizing (rule R90). -/
def constructDefault (s : State) : Option State := constructSizing 10 50000 Config.defaultBases s

/-- One `BVORB` per byte from address `a` on (rule R91). -/
def loadCommands (a : Nat) : List Byte → List Instr
  | [] => []
  | b :: bs => .bvorb (BitVec.ofNat 32 a) b :: loadCommands (a + 1) bs

/-- The restore form (rule R91). -/
def constructRestore (src : List Byte) (primes : List Word) (s : State) : Option State :=
  if src.length < 2 ^ 32 then
    (setLanes primes s).bind (issueAll (.bvrestore (BitVec.ofNat 32 src.length) :: loadCommands 0 src))
  else none

/-- The restore form with no list given: the default family (rule R91). -/
def constructRestoreDefault (src : List Byte) (s : State) : Option State := constructRestore src Config.defaultBases s

/-- `BVRDB` at each address from `a` on, `n` of them (rule R92). -/
def readBytes (a : Nat) : Nat → State → Option (List Byte × State)
  | 0, s => some ([], s)
  | n + 1, s =>
    (issue (.bvrdb (BitVec.ofNat 32 a)) s).bind fun r =>
      (readBytes (a + 1) n r.2).map fun q => (lowByte r.1 :: q.1, q.2)

/-- `toJSON()` (rule R92). -/
def toJSON (s : State) : Option (List Byte × State) :=
  (issue (.csrr 0x03) s).bind fun r => readBytes 0 r.1.toNat r.2

/-- `from(buffer, primes)` (rule R92). -/
def fromJSON (buffer : List Byte) (primes : List Word) (s : State) : Option State :=
  constructRestore buffer primes s

/-- `HLOC` for each lane from `k` on, `n` of them (rule R94). -/
def readLocations (k : Nat) : Nat → State → Option (List Word × State)
  | 0, s => some ([], s)
  | n + 1, s =>
    (issue (.hloc (BitVec.ofNat 8 k)) s).bind fun r =>
      (readLocations (k + 1) n r.2).map fun q => (r.1 :: q.1, q.2)

/-- `getLocationsForCharCodes(bytes)` (rule R94). -/
def getLocations (b : List Byte) (s : State) : Option (List Word × State) :=
  (issueAll (hashCommands b) s).bind fun t =>
    (issue (.csrr 0x04) t).bind fun r => readLocations 0 r.1.toNat r.2

/-- `add(bytes)` (rule R95). -/
def filterAdd (b : List Byte) (s : State) : Option State := issueAll (Pseudo.expand (.add b)) s

/-- The `HTST` that ends a query: whether it answered 1 (rules R95, R96). -/
def queryLanes (s : State) : Option (Bool × State) := (issue .htst s).map fun r => (r.1 == 1, r.2)

/-- `exists(bytes)` (rule R95). -/
def filterExists (b : List Byte) (s : State) : Option (Bool × State) :=
  (issueAll (hashCommands b) s).bind queryLanes

/-- The scan of rule R96 from its second window on: for each pair of an incoming and an outgoing byte, roll and test,
and stop at the first window that tests true. -/
def scanWindows : List (Byte × Byte) → State → Option (Bool × State)
  | [], s => some (false, s)
  | p :: ps, s =>
    (issue (.hroll p.1 p.2) s).bind fun r =>
      (queryLanes r.2).bind fun q => if q.1 then some (true, q.2) else scanWindows ps q.2

/-- `substringExists(d, n)` (rule R96). The scan's pairs are `(d[i+n-1], d[i-1])` for `i = 1 .. m-n`. -/
def substringExists (d : List Byte) (n : Nat) (s : State) : Option (Bool × State) :=
  if d.length < n then some (false, s)
  else if n = 0 then none
  else (filterExists (d.take n) s).bind fun q =>
    if q.1 then some (true, q.2) else scanWindows ((d.drop n).zip d) q.2

/-- The free function `setBit(buffer, pos)` by the block's raw commands: load, set, read back (rule R97). -/
def freeSetBit (buffer : List Byte) (pos : Word) (s : State) : Option (List Byte × State) :=
  (issueAll (.bvrestore (BitVec.ofNat 32 buffer.length) :: loadCommands 0 buffer ++ [.bvset pos]) s).bind toJSON

/-- The free function `isBitSet(buffer, pos)` by the block's raw commands (rule R97). -/
def freeIsBitSet (buffer : List Byte) (pos : Word) (s : State) : Option (Bool × State) :=
  (issueAll (.bvrestore (BitVec.ofNat 32 buffer.length) :: loadCommands 0 buffer) s).bind fun t =>
    (issue (.bvtst pos) t).map fun r => (r.1 == 1, r.2)

end Sys2Proof.Machine
end

