-- ==== Sys2Proof/Safety.lean ====
section
/-! DEFINITION. The terms claims are made in: what a reader can observe of a state, the invariant of every reachable
state (rules R17, R27), which error a command answers (rule R101), what it may write (rule R28), a run of host events
(rule R43), and the polynomial hash (rule R70). Written from the spec's rules, apart from the machine's own
operations wherever the rules allow it. -/

namespace Sys2Proof.Machine

/-! ### Observing a state -/

/-- The state after an outcome, if there is one. -/
def stateAfter : Result → Option State
  | .next t => some t
  | .fault _ => none
  | .refused _ => none

/-- The byte of `BUF` at an address (rule R19). -/
def byteAt (s : State) (a : Nat) : Byte := Memory.read s.buf a

/-- The bit at a position: bit `p mod 8` of byte `p div 8`, bit 0 least significant (rule R31). -/
def bitAt (s : State) (p : Nat) : Bool := (byteAt s (p / 8)).getLsbD (p % 8)

/-- `loc(k) = HASH[k] mod BITCOUNT`, for a lane that exists (rule R75). -/
def laneLoc (s : State) (k : Nat) : Option Nat := s.lanes[k]?.map fun l => l.hash.toNat % s.bitCount.toNat

/-! ### The two answers of a command (rules R8, R45, R103) -/

/-- From `s` to `t`: an OK response with `DATA = d` is offered behind the others, and `ERR` stays. -/
def AnswersOk (s t : State) (d : Nat) : Prop := t.rsps = s.rsps ++ [BitVec.ofNat 64 d] ∧ t.err = s.err

/-- From `s` to `t`: an error response with `ST = c`, `DATA = 0` is offered, `ERR[c]` is set, and nothing else
changes (rules R102, R103). -/
def AnswersError (s t : State) (c : Nat) : Prop :=
  t = { s with err := t.err, rsps := s.rsps ++ [BitVec.ofNat 64 (c * 2 ^ 56)] } ∧
    ∀ j, j < 32 → t.err.getLsbD j = (s.err.getLsbD j || j == c)

/-! ### Frames -/

/-- The bit vector is as before: its two registers and every byte. -/
def SameVector (s t : State) : Prop :=
  t.bitCount = s.bitCount ∧ t.byteLen = s.byteLen ∧ ∀ a, byteAt t a = byteAt s a

/-- The hash engine is as before: every lane register and `CNT`. -/
def SameEngine (s t : State) : Prop := t.lanes = s.lanes ∧ t.cnt = s.cnt

/-- What no command writes: the parameters and what the host has planned. -/
def SameSurroundings (s t : State) : Prop :=
  t.capBytes = s.capBytes ∧ t.lanes.length = s.lanes.length ∧ t.inbox = s.inbox

/-- From `s` to `t`, an error is answered: the new response's `ST` (bits 63:56) is not 0 (rule R45). -/
def AnsweredError (s t : State) : Prop := ∃ r, t.rsps = s.rsps ++ [r] ∧ r.toNat / 2 ^ 56 ≠ 0

/-- Nothing but the response queue and `ERR` differs. -/
def SameButAnswer (s t : State) : Prop := t = { s with err := t.err, rsps := t.rsps }

/-! ### The invariant of every reachable state (rules R17, R22, R27, R45) -/

/-- The parameters are legal (rule R5). -/
structure ParamsLegal (s : State) : Prop where
  capLow : 1 ≤ s.capBytes.toNat
  capHigh : s.capBytes.toNat ≤ 2 ^ 28
  lanesLow : 1 ≤ s.lanes.length
  lanesHigh : s.lanes.length ≤ 16

/-- Every position lies in a byte that exists: `BITCOUNT <= 8 * BYTELEN` (rule R17). -/
def Sized (s : State) : Prop := s.bitCount.toNat ≤ 8 * s.byteLen.toNat

/-- Rule R27, items 4 and 5: `m` bytes have been pushed since the window was cleared; `CNT` is `m` until it
saturates, `HPOW[k] = HBASE[k]^(m-1)` (1 when `m = 0`), and the empty window's hash is 0. -/
def WindowInv (s : State) : Prop :=
  ∃ m : Nat, s.cnt.toNat = min m (2 ^ 32 - 1) ∧
    ∀ l ∈ s.lanes, l.pow = BitVec.ofNat 32 (l.base.toNat ^ (m - 1)) ∧ (m = 0 → l.hash = 0)

/-- A response word of rule R45: OK with any `DATA`, or one of the seven errors with `DATA = 0`. -/
def RspLegal (r : RspWord) : Prop := r.toNat < 2 ^ 32 ∨ ∃ c : Nat, 1 ≤ c ∧ c ≤ 7 ∧ r.toNat = c * 2 ^ 56

/-- The invariant. -/
structure Inv (s : State) : Prop where
  params : ParamsLegal s
  sized : s.byteLen.toNat = (s.bitCount.toNat + 7) / 8
  fits : s.byteLen.toNat ≤ s.capBytes.toNat
  nlanesLow : 1 ≤ s.nlanes.toNat
  nlanesHigh : s.nlanes.toNat ≤ s.lanes.length
  errReserved : ∀ j, s.err.getLsbD j = true → 1 ≤ j ∧ j ≤ 7
  window : WindowInv s
  memWf : Memory.wf s.buf = true
  memBelow : Memory.below s.byteLen.toNat s.buf = true
  rspsLegal : ∀ r ∈ s.rsps, RspLegal r

/-! ### Errors and writes per command (rules R20, R28, R48, R101) -/

/-- The CSR numbers of the map (rule R20). -/
def csrExists (lanesMax n : Nat) : Bool :=
  n ≤ 7 || (0x10 ≤ n && n < 0x10 + lanesMax) || (0x20 ≤ n && n < 0x20 + lanesMax) ||
    (0x30 ≤ n && n < 0x30 + lanesMax)

/-- The CSR numbers of the bases (rule R20). -/
def csrIsBase (lanesMax n : Nat) : Bool := 0x10 ≤ n && n < 0x10 + lanesMax

/-- The CSR numbers that are read-write (rule R20). -/
def csrWritable (lanesMax n : Nat) : Bool := n == 4 || csrIsBase lanesMax n

/-- The map of rule R20 with its contents: the number and the value of every CSR. -/
def csrMap (s : State) : List (Nat × Word) :=
  [(0x00, 0x42560001), (0x01, s.capBytes), (0x02, s.bitCount), (0x03, s.byteLen), (0x04, s.nlanes), (0x05, s.cnt),
    (0x06, s.err), (0x07, BitVec.ofNat 32 s.lanes.length)] ++
  s.lanes.mapIdx (fun k l => (0x10 + k, l.base)) ++
  s.lanes.mapIdx (fun k l => (0x20 + k, l.pow)) ++
  s.lanes.mapIdx (fun k l => (0x30 + k, l.hash))

/-- The error a command answers, by its status code, in the order of the checks (rule R101). -/
def errorOf (s : State) : Instr → Option Nat
  | .bvinit n => if (n.toNat + 7) / 8 > s.capBytes.toNat then some 3 else none
  | .bvrestore len => if len.toNat > s.capBytes.toNat then some 3 else none
  | .bvorb addr _ => if addr.toNat ≥ s.byteLen.toNat then some 2 else none
  | .bvrdb addr => if addr.toNat ≥ s.byteLen.toNat then some 2 else none
  | .bvset pos => if pos.toNat ≥ s.bitCount.toNat then some 2 else none
  | .bvtst pos => if pos.toNat ≥ s.bitCount.toNat then some 2 else none
  | .bvsetm _ => if s.bitCount.toNat = 0 then some 4 else none
  | .bvtstm _ => if s.bitCount.toNat = 0 then some 4 else none
  | .hclr => none
  | .hpush _ => none
  | .hroll _ _ => if s.cnt.toNat = 0 then some 5 else none
  | .hset => if s.bitCount.toNat = 0 then some 4 else none
  | .htst => if s.bitCount.toNat = 0 then some 4 else none
  | .hloc k => if k.toNat ≥ s.lanes.length then some 2 else if s.bitCount.toNat = 0 then some 4 else none
  | .csrr csr => if csrExists s.lanes.length csr.toNat then none else some 6
  | .csrw csr value =>
    if csrWritable s.lanes.length csr.toNat then
      if csr.toNat = 4 ∧ ¬ (1 ≤ value.toNat ∧ value.toNat ≤ s.lanes.length) then some 7 else none
    else some 6

/-- The state a command may write (rule R28). -/
inductive Field where
  | bitCount
  | byteLen
  | buf
  | nlanes
  | cnt
  | hbase
  | hash
  | hpow
  deriving DecidableEq, Repr

/-- A field is the same in two states; memory, byte by byte. -/
def Field.Same (s t : State) : Field → Prop
  | .bitCount => t.bitCount = s.bitCount
  | .byteLen => t.byteLen = s.byteLen
  | .buf => ∀ a, byteAt t a = byteAt s a
  | .nlanes => t.nlanes = s.nlanes
  | .cnt => t.cnt = s.cnt
  | .hbase => t.lanes.map Lane.base = s.lanes.map Lane.base
  | .hash => t.lanes.map Lane.hash = s.lanes.map Lane.hash
  | .hpow => t.lanes.map Lane.pow = s.lanes.map Lane.pow

/-- The writes column of rule R28. -/
def fieldsWritten : Instr → List Field
  | .bvinit _ => [.bitCount, .byteLen, .buf]
  | .bvrestore _ => [.bitCount, .byteLen, .buf]
  | .bvorb _ _ => [.buf]
  | .bvrdb _ => []
  | .bvset _ => [.buf]
  | .bvtst _ => []
  | .bvsetm _ => [.buf]
  | .bvtstm _ => []
  | .hclr => [.hash, .hpow, .cnt]
  | .hpush _ => [.hash, .hpow, .cnt]
  | .hroll _ _ => [.hash]
  | .hset => [.buf]
  | .htst => []
  | .hloc _ => []
  | .csrr _ => []
  | .csrw csr _ => if csr.toNat = 4 then [.nlanes] else [.hbase, .hash, .hpow, .cnt]

/-- The addresses an instruction that constructs no vector may store to, "the same byte of `BUF`" or "the same bytes"
of rule R28's column, by the expressions its meaning uses. A construction replaces all of `BUF`. -/
def storedBytes (s : State) : Instr → List Nat
  | .bvorb addr _ => [addr.toNat]
  | .bvset pos => [byteIndex pos.toNat]
  | .bvsetm v => [byteIndex (reduced v s.bitCount).toNat]
  | .hset => s.activePositions.map byteIndex
  | .bvinit _ => []
  | .bvrestore _ => []
  | .bvrdb _ => []
  | .bvtst _ => []
  | .bvtstm _ => []
  | .hclr => []
  | .hpush _ => []
  | .hroll _ _ => []
  | .htst => []
  | .hloc _ => []
  | .csrr _ => []
  | .csrw _ _ => []

/-- The ways a word is illegal, as rule R48 lists them. -/
def IllegalWord (w : CmdWord) : Prop :=
  CmdWord.op w ∉ ([0x01, 0x02, 0x03, 0x04, 0x10, 0x11, 0x12, 0x13, 0x20, 0x21, 0x22, 0x30, 0x31, 0x32, 0x40, 0x41] : List Byte) ∨
  CmdWord.rsv w ≠ 0 ∨
  (CmdWord.op w ∈ ([0x01, 0x02, 0x04, 0x10, 0x11, 0x12, 0x13, 0x20, 0x21, 0x22, 0x30, 0x31] : List Byte) ∧ CmdWord.a w ≠ 0) ∨
  (CmdWord.op w ∈ ([0x20, 0x30, 0x31, 0x32, 0x40] : List Byte) ∧ CmdWord.b w ≠ 0) ∨
  (CmdWord.op w = 0x21 ∧ (CmdWord.b w).toNat / 2 ^ 8 ≠ 0) ∨
  (CmdWord.op w = 0x22 ∧ (CmdWord.b w).toNat / 2 ^ 16 ≠ 0)

/-! ### Runs (rules R43, R63) -/

/-- The host's events in turn, each made before anything already planned; a stop ends the run. -/
def hostRun : List HostEvent → State → Result
  | [], s => .next s
  | e :: es, s =>
    match step (s.withEvent e) with
    | .next t => hostRun es t
    | .fault r => .fault r
    | .refused r => .refused r

/-- The events that send these commands. -/
def sending (is : List Instr) : List HostEvent := is.map fun i => .command (encode i)

/-- An instruction that constructs no vector (rule R63). -/
def keepsVectorInstr : Instr → Bool
  | .bvinit _ => false
  | .bvrestore _ => false
  | _ => true

/-- An event that is neither a reset nor a construction command (rule R63). -/
def HostEvent.keepsVector : HostEvent → Bool
  | .reset => false
  | .take => true
  | .command w => ((decode w).map keepsVectorInstr).getD true

/-- An instruction allowed between the `HCLR` and the last `HPUSH` of rule R71: an `HPUSH`, or one that is neither
an engine command nor a `CSRW` to an `HBASE`. -/
def continuesWindowInstr (lanesMax : Nat) : Instr → Bool
  | .bvinit _ => true
  | .bvrestore _ => true
  | .bvorb _ _ => true
  | .bvrdb _ => true
  | .bvset _ => true
  | .bvtst _ => true
  | .bvsetm _ => true
  | .bvtstm _ => true
  | .hclr => false
  | .hpush _ => true
  | .hroll _ _ => false
  | .hset => true
  | .htst => true
  | .hloc _ => true
  | .csrr _ => true
  | .csrw csr _ => !csrIsBase lanesMax csr.toNat

/-- An event allowed there: not a reset; a command as above, or an illegal word. -/
def HostEvent.continuesWindow (lanesMax : Nat) : HostEvent → Bool
  | .reset => false
  | .take => true
  | .command w => ((decode w).map (continuesWindowInstr lanesMax)).getD true

/-- The byte an instruction pushes. -/
def pushedByteInstr : Instr → Option Byte
  | .hpush cin => some cin
  | _ => none

/-- The byte an event pushes. -/
def HostEvent.pushedByte : HostEvent → Option Byte
  | .reset => none
  | .take => none
  | .command w => (decode w).bind pushedByteInstr

/-- The bytes that events push, in order. -/
def pushedBytes (es : List HostEvent) : List Byte := es.filterMap HostEvent.pushedByte

/-! ### The polynomial hash (rule R70) -/

/-- `poly(p, b)`: the sum of `b[i] * p^(n-1-i)`. -/
def poly (p : Nat) : List Byte → Nat
  | [] => 0
  | c :: cs => c.toNat * p ^ cs.length + poly p cs

/-- `poly32(p, b)`: the sum modulo `2^32`. -/
def poly32 (p : Word) (b : List Byte) : Word := BitVec.ofNat 32 (poly p.toNat b)

/-- The lane holds the window `b` (rules R71, R72): its hash and its power. -/
def Lane.holds (l : Lane) (b : List Byte) : Prop :=
  l.hash = poly32 l.base b ∧ l.pow = BitVec.ofNat 32 (l.base.toNat ^ (b.length - 1))

/-- The same lane with its base kept and the window `b` in it. -/
def Lane.window (b : List Byte) (l : Lane) : Lane :=
  { base := l.base, hash := poly32 l.base b, pow := BitVec.ofNat 32 (l.base.toNat ^ (b.length - 1)) }

end Sys2Proof.Machine
end

