-- ==== Sys2Proof/Certificates/Slice0/Obligations.lean ====
section
/-! DEFINITION. The statements about BVRH, each from the numbered rules of spec/ its docstring names. Terms such as
`AnswersOk`, `Inv` and `errorOf` are those of Sys2Proof/Safety.lean. `Sized` (rule R17) is a premise where a position
must lie in a byte that exists, `ParamsLegal` (rule R5) where a parameter's range matters; both are parts of `Inv`,
which `InvAtReset` and `InvKeptByEveryStep` state of the machine. -/

open Sys2Proof Sys2Proof.Machine

/-! ## Encoding -/

/-- Decode and encode agree (rules R46, R47, R51): no operand bit is dropped. -/
def Obligations.EncodedInstructionDecodesBack : Prop :=
  ∀ i : Instr, i.wellFormed = true → decode (encode i) = some i

/-- Each word has one meaning: the word a command was decoded from is its encoding (rules R44, R46, R48). -/
def Obligations.DecodedWordEncodesBack : Prop :=
  ∀ (w : CmdWord) (i : Instr), decode w = some i → encode i = w

/-- Rule R46: a word is a row's command exactly when `w & mask = match`, and at most one row matches. -/
def Obligations.WordsOfTheOpcodeTableDecode : Prop :=
  ∀ (w : CmdWord) (r : OpRow), r ∈ opRows →
    (r.covers w = true ↔ ∃ i, decode w = some i ∧ i.asm.mnemonic = r.mnemonic) ∧
    (∀ r' ∈ opRows, r.covers w = true → r'.covers w = true → r' = r)

/-- Words written out from the spec's encodings decode to what they stand for (rule R51's worked encodings and one
more word of each family). -/
def Obligations.WrittenOutWordsDecode : Prop :=
  decode 0x010000000007A120 = some (.bvinit 500000) ∧ decode 0x100000000000000D = some (.bvset 13) ∧
  decode 0x0381000000000002 = some (.bvorb 2 0x81) ∧ decode 0x2100000000000068 = some (.hpush 0x68) ∧
  decode 0x220000000000776F = some (.hroll 0x6F 0x77) ∧ decode 0x3202000000000000 = some (.hloc 2) ∧
  decode 0x4111000000000011 = some (.csrw 0x11 17) ∧ decode 0x4006000000000000 = some (.csrr 0x06)

/-- Rule R44: the fields are the word's bits 63:56, 55:48, 47:32 and 31:0. -/
def Obligations.CommandWordIsItsFourFields : Prop :=
  ∀ w : CmdWord, w.toNat = (CmdWord.op w).toNat * 2 ^ 56 + (CmdWord.a w).toNat * 2 ^ 48 +
    (CmdWord.rsv w).toNat * 2 ^ 32 + (CmdWord.b w).toNat

/-- Rule R48: in any state an illegal word answers `ERR_ILLEGAL` and changes nothing else, and a word that is not
illegal is a command and is executed. -/
def Obligations.IllegalWordsAnswerErrIllegal : Prop :=
  ∀ (s : State) (w : CmdWord) (rest : List HostEvent), s.inbox = .command w :: rest →
    (IllegalWord w → ∃ t, step s = .next t ∧ AnswersError { s with inbox := rest } t 1) ∧
    (¬ IllegalWord w → ∃ i, decode w = some i ∧ step s = exec i { s with inbox := rest })

/-- The assembler's line of an instruction assembles to that instruction (rule R51). -/
def Obligations.AssemblerLinesAssembleBack : Prop :=
  ∀ i : Instr, assemble i.asm = some i

/-- The response word's layout: `ST` in bits 63:56, zeros in 55:32, `DATA` in 31:0 (rule R45). -/
def Obligations.ResponseWordLayout : Prop :=
  ∀ (st : Byte) (d : Word), (rspWord st d).toNat = st.toNat * 2 ^ 56 + d.toNat

/-! ## The step, reset and the invariant -/

/-- A step runs the decoded command on the state with the event gone; a taken response is the oldest; with nothing
planned the state stays (rules R42, R43, R48, R113). -/
def Obligations.StepRunsTheDecodedCommand : Prop :=
  (∀ (s : State) (w : CmdWord) (rest : List HostEvent) (i : Instr),
    s.inbox = .command w :: rest → decode w = some i → step s = exec i { s with inbox := rest }) ∧
  (∀ (s : State) (rest : List HostEvent), s.inbox = .take :: rest →
    step s = .next { s with inbox := rest, rsps := s.rsps.drop 1 }) ∧
  (∀ s : State, s.inbox = [] → step s = .next s)

/-- Rule R43: each accepted command, whatever its word, is executed in its turn and produces exactly one response,
offered behind those of the commands before it; responses leave oldest first; no other event produces one. -/
def Obligations.EveryCommandGetsOneResponseInOrder : Prop :=
  ∀ s : State, Inv s →
    (∀ (w : CmdWord) (rest : List HostEvent), s.inbox = .command w :: rest →
      ∃ t r, step s = .next t ∧ t.inbox = rest ∧ t.rsps = s.rsps ++ [r]) ∧
    (∀ (rest : List HostEvent) (r : RspWord) (rs : List RspWord), s.inbox = .take :: rest → s.rsps = r :: rs →
      ∃ t, step s = .next t ∧ t.inbox = rest ∧ t.rsps = rs) ∧
    (∀ rest : List HostEvent, s.inbox = .take :: rest → s.rsps = [] →
      step s = .next { s with inbox := rest }) ∧
    (∀ rest : List HostEvent, s.inbox = .reset :: rest → ∃ t, step s = .next t ∧ t.rsps = [])

/-- Rules R114 and R116: a reset event gives the reset state whatever the state was, withdraws every response not
yet taken, and leaves what the host does afterwards. -/
def Obligations.ResetEventGivesTheResetState : Prop :=
  ∀ (s : State) (rest : List HostEvent), s.inbox = .reset :: rest →
    ∃ t, step s = .next t ∧ t.bitCount = 0 ∧ t.byteLen = 0 ∧ t.buf = [] ∧
      t.nlanes = BitVec.ofNat 32 (min 3 s.lanes.length) ∧ t.cnt = 0 ∧ t.err = 0 ∧
      t.lanes.length = s.lanes.length ∧
      (∀ (k : Nat) (l : Lane), t.lanes[k]? = some l → l.hash = 0 ∧ l.pow = 1 ∧
        l.base = if k = 0 then 11 else if k = 1 then 17 else if k = 2 then 23 else 0) ∧
      t.capBytes = s.capBytes ∧ t.rsps = [] ∧ t.inbox = rest

/-- Rule R26: the state after reset. The two parameters are the model's choice of values for a machine whose
`BV_CAP_BYTES` the spec leaves open (log entry 1): the statement is about every capacity and lane count. -/
def Obligations.StateAfterReset : Prop :=
  (∀ (cap : Word) (n : Nat),
    let s := State.resetWith cap n
    s.bitCount = 0 ∧ s.byteLen = 0 ∧ (∀ a, memRead s a = none) ∧ s.nlanes = BitVec.ofNat 32 (min 3 n) ∧
      s.cnt = 0 ∧ s.err = 0 ∧ s.lanes.length = n ∧
      ∀ k < n, s.lanes[k]? = some
        { base := if k = 0 then 11 else if k = 1 then 17 else if k = 2 then 23 else 0, hash := 0, pow := 1 }) ∧
  ∃ cap : Word, State.reset = State.resetWith cap 3

/-- The reset state keeps the invariant (rules R17, R27). -/
def Obligations.InvAtReset : Prop := Inv State.reset

/-- Rule R27: every step from a state with the invariant gives a state with it. -/
def Obligations.InvKeptByEveryStep : Prop :=
  ∀ s t : State, Inv s → step s = .next t → Inv t

/-- No event stops the machine: from a state with the invariant every step answers a next state (rules R43, R53,
R128). -/
def Obligations.StepNeverStops : Prop :=
  ∀ s : State, Inv s → ∃ t, step s = .next t

/-- The parameters are fixed for the life of the hardware: no step changes one (rule R5). -/
def Obligations.ParametersNeverChange : Prop :=
  ∀ s t : State, step s = .next t → t.capBytes = s.capBytes ∧ t.lanes.length = s.lanes.length

/-! ## Errors -/

/-- Rule R101, with rule R103's mechanics: the first check of the table that applies is the error answered, and the
command changes nothing else. -/
def Obligations.ErrorsFollowTheCheckTable : Prop :=
  ∀ (s : State) (i : Instr) (c : Nat), s.lanes.length ≤ 16 → errorOf s i = some c →
    ∃ t, exec i s = .next t ∧ AnswersError s t c

/-- Every command completes: where no check of rule R101 applies, each of the sixteen commands answers OK with a
32-bit result, records no error, and leaves the parameters and the host's plans. -/
def Obligations.CommandsWithoutErrorAnswerOk : Prop :=
  ∀ (s : State) (i : Instr), s.lanes.length ≤ 16 → Sized s → errorOf s i = none →
    ∃ t d, exec i s = .next t ∧ d < 2 ^ 32 ∧ AnswersOk s t d ∧ SameSurroundings s t

/-- `ERR`, once a bit is set, keeps it until reset (rules R22, R27 item 6, R107). -/
def Obligations.ErrorBitsAreSticky : Prop :=
  ∀ (s t : State) (j : Nat), (∀ rest, s.inbox ≠ .reset :: rest) → step s = .next t →
    s.err.getLsbD j = true → t.err.getLsbD j = true

/-! ## The bit vector -/

/-- Rule R55: `BVINIT n` creates a zeroed vector of `n` bits, or answers `ERR_CAP` with nothing changed; the engine is
not touched. -/
def Obligations.BvinitBuildsAZeroedVector : Prop :=
  ∀ (s : State) (n : Word),
    ((n.toNat + 7) / 8 ≤ s.capBytes.toNat → ∃ t, exec (.bvinit n) s = .next t ∧ t.bitCount = n ∧
      t.byteLen.toNat = (n.toNat + 7) / 8 ∧ (∀ a, byteAt t a = 0) ∧ AnswersOk s t ((n.toNat + 7) / 8) ∧
      SameEngine s t ∧ t.nlanes = s.nlanes ∧ SameSurroundings s t) ∧
    (s.capBytes.toNat < (n.toNat + 7) / 8 → ∃ t, exec (.bvinit n) s = .next t ∧ AnswersError s t 3)

/-- Rule R56: `BVRESTORE len` creates a zeroed vector of `len` bytes and `8 * len` bits, or answers `ERR_CAP`. -/
def Obligations.BvrestoreBuildsAZeroedVector : Prop :=
  ∀ (s : State) (len : Word), s.capBytes.toNat ≤ 2 ^ 28 →
    (len.toNat ≤ s.capBytes.toNat → ∃ t, exec (.bvrestore len) s = .next t ∧ t.bitCount.toNat = 8 * len.toNat ∧
      t.byteLen = len ∧ (∀ a, byteAt t a = 0) ∧ AnswersOk s t (8 * len.toNat) ∧
      SameEngine s t ∧ t.nlanes = s.nlanes ∧ SameSurroundings s t) ∧
    (s.capBytes.toNat < len.toNat → ∃ t, exec (.bvrestore len) s = .next t ∧ AnswersError s t 3)

/-- `BVRESTORE len` leaves the same state as `BVINIT (8 * len)`, the responses apart (rule R56, corner cases). -/
def Obligations.BvrestoreLeavesTheStateOfBvinit : Prop :=
  ∀ (s : State) (len : Word), s.capBytes.toNat ≤ 2 ^ 28 → len.toNat ≤ s.capBytes.toNat →
    ∃ t u, exec (.bvrestore len) s = .next t ∧ exec (.bvinit (8 * len)) s = .next u ∧
      u = { t with rsps := u.rsps }

/-- Rule R57: `BVORB addr, byte` ORs one byte in, padding bits included, and changes no other byte; outside the buffer
it answers `ERR_RANGE`. -/
def Obligations.BvorbOrsOneByte : Prop :=
  ∀ (s : State) (addr : Word) (byte : Byte),
    (addr.toNat < s.byteLen.toNat → ∃ t, exec (.bvorb addr byte) s = .next t ∧
      (∀ p, bitAt t p = (bitAt s p || (p / 8 == addr.toNat && byte.getLsbD (p % 8)))) ∧
      (∀ a, a ≠ addr.toNat → byteAt t a = byteAt s a) ∧ t.bitCount = s.bitCount ∧ t.byteLen = s.byteLen ∧
      AnswersOk s t 0 ∧ SameEngine s t ∧ t.nlanes = s.nlanes ∧ SameSurroundings s t) ∧
    (s.byteLen.toNat ≤ addr.toNat → ∃ t, exec (.bvorb addr byte) s = .next t ∧ AnswersError s t 2)

/-- Rule R58: `BVRDB addr` answers the byte, zero-extended, and changes nothing; outside the buffer it answers
`ERR_RANGE`. -/
def Obligations.BvrdbReadsOneByte : Prop :=
  ∀ (s : State) (addr : Word),
    (addr.toNat < s.byteLen.toNat → ∃ t, exec (.bvrdb addr) s = .next t ∧ AnswersOk s t (byteAt s addr.toNat).toNat ∧
      SameButAnswer s t) ∧
    (s.byteLen.toNat ≤ addr.toNat → ∃ t, exec (.bvrdb addr) s = .next t ∧ AnswersError s t 2)

/-- Rules R53 and R59: `BVSET pos` sets exactly the one bit at a legal position; at any other it answers
`ERR_RANGE`. -/
def Obligations.BvsetSetsExactlyOneBit : Prop :=
  ∀ (s : State) (pos : Word), Sized s →
    (pos.toNat < s.bitCount.toNat → ∃ t, exec (.bvset pos) s = .next t ∧
      (∀ p, bitAt t p = (bitAt s p || p == pos.toNat)) ∧ (∀ a, a ≠ pos.toNat / 8 → byteAt t a = byteAt s a) ∧
      t.bitCount = s.bitCount ∧ t.byteLen = s.byteLen ∧
      AnswersOk s t 0 ∧ SameEngine s t ∧ t.nlanes = s.nlanes ∧ SameSurroundings s t) ∧
    (s.bitCount.toNat ≤ pos.toNat → ∃ t, exec (.bvset pos) s = .next t ∧ AnswersError s t 2)

/-- Rules R54 and R60: `BVTST pos` answers the bit at a legal position and changes nothing; at any other it answers
`ERR_RANGE`. -/
def Obligations.BvtstAnswersTheBit : Prop :=
  ∀ (s : State) (pos : Word), Sized s →
    (pos.toNat < s.bitCount.toNat → ∃ t, exec (.bvtst pos) s = .next t ∧
      AnswersOk s t (if bitAt s pos.toNat then 1 else 0) ∧ SameButAnswer s t) ∧
    (s.bitCount.toNat ≤ pos.toNat → ∃ t, exec (.bvtst pos) s = .next t ∧ AnswersError s t 2)

/-- Rule R61: `BVSETM v` sets exactly the bit at `v mod BITCOUNT` and answers that position; on an empty bit space it
answers `ERR_ZEROSIZE`. -/
def Obligations.BvsetmSetsTheReducedBit : Prop :=
  ∀ (s : State) (v : Word), Sized s →
    (s.bitCount.toNat ≠ 0 → ∃ t, exec (.bvsetm v) s = .next t ∧
      (∀ p, bitAt t p = (bitAt s p || p == v.toNat % s.bitCount.toNat)) ∧
      (∀ a, a ≠ v.toNat % s.bitCount.toNat / 8 → byteAt t a = byteAt s a) ∧
      t.bitCount = s.bitCount ∧ t.byteLen = s.byteLen ∧
      AnswersOk s t (v.toNat % s.bitCount.toNat) ∧ SameEngine s t ∧ t.nlanes = s.nlanes ∧ SameSurroundings s t) ∧
    (s.bitCount.toNat = 0 → ∃ t, exec (.bvsetm v) s = .next t ∧ AnswersError s t 4)

/-- Rule R62: `BVTSTM v` answers the bit at `v mod BITCOUNT` and changes nothing; on an empty bit space it answers
`ERR_ZEROSIZE`. -/
def Obligations.BvtstmAnswersTheReducedBit : Prop :=
  ∀ (s : State) (v : Word), Sized s →
    (s.bitCount.toNat ≠ 0 → ∃ t, exec (.bvtstm v) s = .next t ∧
      AnswersOk s t (if bitAt s (v.toNat % s.bitCount.toNat) then 1 else 0) ∧ SameButAnswer s t) ∧
    (s.bitCount.toNat = 0 → ∃ t, exec (.bvtstm v) s = .next t ∧ AnswersError s t 4)

/-- Rule R63: unless the event is a reset or a construction command, a step changes no bit from 1 to 0. -/
def Obligations.BitsNeverFallBetweenConstructions : Prop :=
  ∀ (s t : State) (p : Nat), (∀ e rest, s.inbox = e :: rest → e.keepsVector = true) → step s = .next t →
    bitAt s p = true → bitAt t p = true

/-- Rule R40 (a): a position set by `BVSET` tests 1 after any further events without a construction or reset. -/
def Obligations.SetBitIsSeenByEveryLaterTest : Prop :=
  ∀ (s t u : State) (pos : Word) (es : List HostEvent), Sized s → pos.toNat < s.bitCount.toNat →
    exec (.bvset pos) s = .next t → (∀ e ∈ es, e.keepsVector = true) → hostRun es t = .next u →
    ∃ v, exec (.bvtst pos) u = .next v ∧ AnswersOk u v 1

/-- The bit commands never set a bit outside the bit space, so never a padding bit (rule R64). -/
def Obligations.PaddingBitsAreNeverSetByBitCommands : Prop :=
  ∀ (s t : State) (i : Instr) (p : Nat), i = .hset ∨ (∃ pos, i = .bvset pos) ∨ (∃ v, i = .bvsetm v) →
    exec i s = .next t → s.bitCount.toNat ≤ p → bitAt t p = bitAt s p

/-- The bit tests never read a bit outside the bit space: two states that differ only in such bits give the same
answer (rule R64). -/
def Obligations.PaddingBitsAreNeverReadByBitTests : Prop :=
  ∀ (s s' t : State) (i : Instr), i = .htst ∨ (∃ pos, i = .bvtst pos) ∨ (∃ v, i = .bvtstm v) →
    s' = { s with buf := s'.buf } → (∀ p, p < s.bitCount.toNat → bitAt s' p = bitAt s p) →
    exec i s = .next t → exec i s' = .next { t with buf := s'.buf }

/-! ## The hash engine -/

/-- Rule R67: `HCLR` empties the window of every lane and changes nothing else. -/
def Obligations.HclrEmptiesTheWindow : Prop :=
  ∀ s : State, ∃ t, exec .hclr s = .next t ∧
    t.lanes = s.lanes.map (fun l => { base := l.base, hash := 0, pow := 1 }) ∧ t.cnt = 0 ∧ t.nlanes = s.nlanes ∧
    SameVector s t ∧ AnswersOk s t 0 ∧ SameSurroundings s t

/-- Rule R68: `HPUSH cin` in every lane, with 32-bit wrap-around; `CNT` saturates (rule R12). -/
def Obligations.HpushAppendsOneByte : Prop :=
  ∀ (s : State) (cin : Byte), ∃ t, exec (.hpush cin) s = .next t ∧
    (∀ (k : Nat) (l : Lane), s.lanes[k]? = some l → ∃ l', t.lanes[k]? = some l' ∧ l'.base = l.base ∧
      l'.hash.toNat = (l.hash.toNat * l.base.toNat + cin.toNat) % 2 ^ 32 ∧
      (s.cnt.toNat ≠ 0 → l'.pow.toNat = l.pow.toNat * l.base.toNat % 2 ^ 32) ∧
      (s.cnt.toNat = 0 → l'.pow = l.pow)) ∧
    t.cnt.toNat = min (s.cnt.toNat + 1) (2 ^ 32 - 1) ∧ t.nlanes = s.nlanes ∧
    SameVector s t ∧ AnswersOk s t 0 ∧ SameSurroundings s t

/-- Rule R69: `HROLL cin, cout` in every lane, in arithmetic modulo `2^32`; with an empty window it answers
`ERR_EMPTY`. -/
def Obligations.HrollSlidesTheWindow : Prop :=
  ∀ (s : State) (cin cout : Byte),
    (s.cnt.toNat ≠ 0 → ∃ t, exec (.hroll cin cout) s = .next t ∧
      (∀ (k : Nat) (l : Lane), s.lanes[k]? = some l → ∃ l', t.lanes[k]? = some l' ∧ l'.base = l.base ∧
        l'.pow = l.pow ∧ (l'.hash.toNat : Int) =
          (((l.hash.toNat : Int) - cout.toNat * l.pow.toNat) * l.base.toNat + cin.toNat) % 2 ^ 32) ∧
      t.cnt = s.cnt ∧ t.nlanes = s.nlanes ∧ SameVector s t ∧ AnswersOk s t 0 ∧ SameSurroundings s t) ∧
    (s.cnt.toNat = 0 → ∃ t, exec (.hroll cin cout) s = .next t ∧ AnswersError s t 5)

/-- Rule R71: after `HCLR` and a push of each byte of `b`, every lane holds `poly32` of `b` and its power, and `CNT`
is the saturated length. First back to back, from any state; then with any events between that are no other engine
command, no `CSRW` to an `HBASE` and no reset. -/
def Obligations.FromScratchLaw : Prop :=
  (∀ (s : State) (b : List Byte), ∃ t,
    hostRun (sending (.hclr :: b.map .hpush)) s = .next t ∧
    t.lanes = s.lanes.map (Lane.window b) ∧ t.cnt.toNat = min b.length (2 ^ 32 - 1)) ∧
  (∀ (s : State) (es : List HostEvent), (∀ e ∈ es, e.continuesWindow s.lanes.length = true) →
    (∀ t, hostRun (sending [.hclr] ++ es) s = .next t →
      t.lanes = s.lanes.map (Lane.window (pushedBytes es)) ∧
        t.cnt.toNat = min (pushedBytes es).length (2 ^ 32 - 1)) ∧
    (Inv s → ∃ t, hostRun (sending [.hclr] ++ es) s = .next t))

/-- Rule R72: with the window `a` in every lane, rolling its first byte out and `cin` in gives the window
`a[1..] ++ [cin]` in every lane, `HPOW` and `CNT` unchanged. -/
def Obligations.RollingLaw : Prop :=
  ∀ (s : State) (c : Byte) (a : List Byte) (cin : Byte), s.cnt.toNat ≠ 0 → (∀ l ∈ s.lanes, l.holds (c :: a)) →
    ∃ t, exec (.hroll cin c) s = .next t ∧ (∀ l ∈ t.lanes, l.holds (a ++ [cin])) ∧
      t.lanes.map Lane.base = s.lanes.map Lane.base ∧ t.lanes.map Lane.pow = s.lanes.map Lane.pow ∧ t.cnt = s.cnt

/-- Rule R72's consequence: pushing the first `n` bytes of `d` and rolling `i` times leaves the lanes that `HCLR` and
pushes of the window `d[i .. i+n)` leave. -/
def Obligations.ScanEqualsFromScratch : Prop :=
  ∀ (s : State) (d : List Byte) (n i : Nat), 1 ≤ n → i + n ≤ d.length →
    ∃ t u, hostRun (sending (.hclr :: (d.take n).map .hpush ++
        (((d.drop n).zip d).take i).map (fun p => .hroll p.1 p.2))) s = .next t ∧
      hostRun (sending (.hclr :: ((d.drop i).take n).map .hpush)) s = .next u ∧
      t.lanes = u.lanes ∧ t.cnt = u.cnt

/-- With a wrong outgoing byte the lanes hold `poly32(p, window') + (a[0] - cout) * p^n mod 2^32` (rule R120). -/
def Obligations.WrongOutgoingByteShiftsTheHash : Prop :=
  ∀ (s : State) (c : Byte) (a : List Byte) (cin cout : Byte), s.cnt.toNat ≠ 0 → (∀ l ∈ s.lanes, l.holds (c :: a)) →
    ∃ t, exec (.hroll cin cout) s = .next t ∧ ∀ l ∈ t.lanes,
      (l.hash.toNat : Int) = ((poly l.base.toNat (a ++ [cin]) : Int) +
        ((c.toNat : Int) - cout.toNat) * l.base.toNat ^ (a.length + 1)) % 2 ^ 32

/-- Rule R73: after `HCLR` and a push of each byte of `b`, the `HASH` of every lane is the exact polynomial wherever
that is below `2^32`, differs from it by a multiple of `2^32` otherwise, and is exact for every window of at most 6
bytes in a lane whose base is at most 23. -/
def Obligations.ShortWindowsAreExact : Prop :=
  ∀ (s : State) (b : List Byte), ∃ t, hostRun (sending (.hclr :: b.map .hpush)) s = .next t ∧
    ∀ (k : Nat) (l : Lane), s.lanes[k]? = some l → ∃ l', t.lanes[k]? = some l' ∧ l'.base = l.base ∧
      (poly l.base.toNat b < 2 ^ 32 → l'.hash.toNat = poly l.base.toNat b) ∧
      (∃ q, poly l.base.toNat b = l'.hash.toNat + q * 2 ^ 32) ∧
      (l.base.toNat ≤ 23 → b.length ≤ 6 → l'.hash.toNat = poly l.base.toNat b)

/-- Lanes are independent: what an engine command leaves in a lane depends on that lane and `CNT` alone
(rule R66). -/
def Obligations.LanesAreIndependent : Prop :=
  ∀ (s s' t t' : State) (i : Instr) (k : Nat), i = .hclr ∨ (∃ c, i = .hpush c) ∨ (∃ c d, i = .hroll c d) →
    s'.cnt = s.cnt → s'.lanes[k]? = s.lanes[k]? → exec i s = .next t → exec i s' = .next t' →
    t'.lanes[k]? = t.lanes[k]?

/-! ## The coupling commands -/

/-- Rule R76: `HSET` sets exactly the positions of lanes `0 .. NLANES-1`; on an empty bit space it answers
`ERR_ZEROSIZE`. -/
def Obligations.HsetSetsTheActivePositions : Prop :=
  ∀ s : State, Sized s →
    (s.bitCount.toNat ≠ 0 → ∃ t, exec .hset s = .next t ∧
      (∀ p, bitAt t p = true ↔ bitAt s p = true ∨ ∃ k, k < s.nlanes.toNat ∧ laneLoc s k = some p) ∧
      (∀ a, (∀ k p, k < s.nlanes.toNat → laneLoc s k = some p → a ≠ p / 8) → byteAt t a = byteAt s a) ∧
      t.bitCount = s.bitCount ∧ t.byteLen = s.byteLen ∧
      AnswersOk s t 0 ∧ SameEngine s t ∧ t.nlanes = s.nlanes ∧ SameSurroundings s t) ∧
    (s.bitCount.toNat = 0 → ∃ t, exec .hset s = .next t ∧ AnswersError s t 4)

/-- Rule R77: `HTST` answers 1 when the bit of every lane `0 .. NLANES-1` is set, else 0, and changes nothing; on an
empty bit space it answers `ERR_ZEROSIZE`. -/
def Obligations.HtstAnswersTheConjunction : Prop :=
  ∀ s : State, Sized s →
    (s.bitCount.toNat ≠ 0 → ∃ t r, exec .htst s = .next t ∧ AnswersOk s t r ∧ SameButAnswer s t ∧
      (r = 0 ∨ r = 1) ∧
      (r = 1 ↔ ∀ k p, k < s.nlanes.toNat → laneLoc s k = some p → bitAt s p = true)) ∧
    (s.bitCount.toNat = 0 → ∃ t, exec .htst s = .next t ∧ AnswersError s t 4)

/-- Rule R78: `HLOC k` answers `HASH[k] mod BITCOUNT` of any existing lane and changes nothing; a lane that does not
exist answers `ERR_RANGE`, checked first; an empty bit space answers `ERR_ZEROSIZE`. -/
def Obligations.HlocAnswersTheReducedHash : Prop :=
  ∀ (s : State) (k : Byte),
    (∀ l, s.lanes[k.toNat]? = some l → s.bitCount.toNat ≠ 0 → ∃ t, exec (.hloc k) s = .next t ∧
      AnswersOk s t (l.hash.toNat % s.bitCount.toNat) ∧ SameButAnswer s t) ∧
    (s.lanes.length ≤ k.toNat → ∃ t, exec (.hloc k) s = .next t ∧ AnswersError s t 2) ∧
    (k.toNat < s.lanes.length → s.bitCount.toNat = 0 → ∃ t, exec (.hloc k) s = .next t ∧ AnswersError s t 4)

/-- Rule R79: no false negatives at the level of the block. After an `HSET` answered OK, and any events without a
construction or reset, an `HTST` with the same active hashes and `NLANES` answers 1. -/
def Obligations.NoFalseNegatives : Prop :=
  ∀ (s t u : State) (es : List HostEvent), Sized s → s.bitCount.toNat ≠ 0 → exec .hset s = .next t →
    (∀ e ∈ es, e.keepsVector = true) → hostRun es t = .next u → u.nlanes = s.nlanes →
    (∀ k, k < s.nlanes.toNat → u.lanes[k]?.map Lane.hash = s.lanes[k]?.map Lane.hash) →
    ∃ v, exec .htst u = .next v ∧ AnswersOk u v 1

/-! ## The system commands -/

/-- Rules R20 and R82: `CSRR` answers the value the map gives the number and changes nothing; a number not in the map
answers `ERR_CSR`. -/
def Obligations.CsrrReadsTheMap : Prop :=
  ∀ (s : State) (csr : Byte), s.lanes.length ≤ 16 →
    (∀ v, (csr.toNat, v) ∈ csrMap s → ∃ t, exec (.csrr csr) s = .next t ∧ AnswersOk s t v.toNat ∧ SameButAnswer s t) ∧
    ((∀ v, (csr.toNat, v) ∉ csrMap s) → ∃ t, exec (.csrr csr) s = .next t ∧ AnswersError s t 6)

/-- Rule R84: `CSRW NLANES, value` with a legal value changes `NLANES` alone; any other value answers `ERR_VALUE`. -/
def Obligations.CsrwNlanesSetsTheListLength : Prop :=
  ∀ (s : State) (value : Word),
    (1 ≤ value.toNat → value.toNat ≤ s.lanes.length → ∃ t, exec (.csrw 0x04 value) s = .next t ∧
      t = { s with nlanes := value, rsps := t.rsps } ∧ AnswersOk s t 0) ∧
    (value.toNat < 1 ∨ s.lanes.length < value.toNat →
      ∃ t, exec (.csrw 0x04 value) s = .next t ∧ AnswersError s t 7)

/-- Rule R85: `CSRW HBASE<k>, value` installs any base in lane `k`, keeps the other bases, clears the window of every
lane, and leaves the vector and `NLANES`. -/
def Obligations.CsrwHbaseInstallsTheBase : Prop :=
  ∀ (s : State) (k : Nat) (value : Word), k < s.lanes.length → k < 16 →
    ∃ t, exec (.csrw (BitVec.ofNat 8 (0x10 + k)) value) s = .next t ∧
      (∀ j, j < s.lanes.length → ∃ l l', s.lanes[j]? = some l ∧ t.lanes[j]? = some l' ∧
        l'.base = (if j = k then value else l.base) ∧ l'.hash = 0 ∧ l'.pow = 1) ∧
      t.cnt = 0 ∧ SameVector s t ∧ t.nlanes = s.nlanes ∧ AnswersOk s t 0 ∧ SameSurroundings s t

/-- Rule R83: only `NLANES` and the `HBASE` of an existing lane are writable; every other write answers `ERR_CSR` and
writes nothing. -/
def Obligations.CsrwRefusesEveryOtherNumber : Prop :=
  ∀ (s : State) (csr : Byte) (value : Word), csr.toNat ≠ 4 →
    (∀ k, k < s.lanes.length → k < 16 → csr.toNat ≠ 0x10 + k) →
    ∃ t, exec (.csrw csr value) s = .next t ∧ AnswersError s t 6

/-! ## Frames over all commands -/

/-- The writes column of rule R28. A command answered with an error changes `ERR` and the response alone; one answered
OK leaves `ERR` and all state outside its column: every byte but those it stores to (where it constructs no vector),
and every base but that of the lane a `CSRW` names. No command changes the parameters or the host's plans. -/
def Obligations.CommandsWriteOnlyTheirColumn : Prop :=
  ∀ (s t : State) (i : Instr), exec i s = .next t →
    (∃ r, t.rsps = s.rsps ++ [r]) ∧ SameSurroundings s t ∧
    (AnsweredError s t → SameButAnswer s t) ∧
    (¬ AnsweredError s t → t.err = s.err) ∧
    (∀ f : Field, f ∉ fieldsWritten i → f.Same s t) ∧
    (keepsVectorInstr i = true → ∀ a, a ∉ storedBytes s i → byteAt t a = byteAt s a) ∧
    (∀ (csr : Byte) (value : Word) (j : Nat), i = .csrw csr value → csr.toNat ≠ 0x10 + j →
      t.lanes[j]?.map Lane.base = s.lanes[j]?.map Lane.base)

/-- Rule R36: the commands that only read change nothing but the response queue, and `ERR` where they answer an
error. -/
def Obligations.ReadingCommandsChangeNothing : Prop :=
  ∀ (s t : State) (i : Instr),
    (∃ a, i = .bvrdb a) ∨ (∃ p, i = .bvtst p) ∨ (∃ v, i = .bvtstm v) ∨ i = .htst ∨ (∃ k, i = .hloc k) ∨
      (∃ c, i = .csrr c) →
    exec i s = .next t → SameButAnswer s t ∧ (¬ AnsweredError s t → t.err = s.err)

/-! ## The host's reference sequences

That a sequence answers `none` where a response is not OK, and where its responses wait, is the model's choice
(log entry 11): the statements say that it answers `some`, and what. -/

/-- Rule R91: the restore form leaves exactly the bytes of the buffer it was given, as a vector of `8 * len` bits with
the given list of bases. -/
def Obligations.RestoreLoadsTheBuffer : Prop :=
  ∀ (s : State) (src : List Byte) (primes : List Word), Inv s → src.length ≤ s.capBytes.toNat →
    1 ≤ primes.length → primes.length ≤ s.lanes.length →
    ∃ t, constructRestore src primes s = some t ∧ t.bitCount.toNat = 8 * src.length ∧
      t.byteLen.toNat = src.length ∧ (∀ a, a < src.length → src[a]? = some (byteAt t a)) ∧
      t.nlanes.toNat = primes.length ∧ (t.lanes.take primes.length).map Lane.base = primes

/-- Rule R92: reading a vector out and restoring the bytes gives the same bytes, and, when `BITCOUNT` is a multiple of
8, the same bit count, so the same vector. -/
def Obligations.SerialisedVectorRoundTrips : Prop :=
  ∀ (s : State) (primes : List Word), Inv s → 1 ≤ primes.length → primes.length ≤ s.lanes.length →
    ∃ out s' t, toJSON s = some (out, s') ∧ out.length = s.byteLen.toNat ∧ SameVector s s' ∧
      fromJSON out primes s' = some t ∧ (∀ a, byteAt t a = byteAt s a) ∧
      (s.bitCount.toNat % 8 = 0 → t.bitCount = s.bitCount)

/-- Rule R94: `getLocations` answers one position per active lane, `poly32` of the bytes reduced modulo the bit
count. -/
def Obligations.LocationsAreTheReducedHashes : Prop :=
  ∀ (s : State) (b : List Byte), Inv s → s.bitCount.toNat ≠ 0 →
    ∃ locs t, getLocations b s = some (locs, t) ∧ SameVector s t ∧
      locs.map BitVec.toNat = (s.lanes.take s.nlanes.toNat).map (fun l => (poly32 l.base b).toNat % s.bitCount.toNat)

/-- Rules R95 and R98 item 1: after `add(x)`, and any further additions, `exists(x)` is true. -/
def Obligations.AddedSequencesExist : Prop :=
  ∀ (s : State) (b : List Byte) (more : List (List Byte)), Inv s → s.bitCount.toNat ≠ 0 →
    ∃ t u v, filterAdd b s = some t ∧ more.foldlM (fun x m => filterAdd m x) t = some u ∧
      filterExists b u = some (true, v)

/-- Rule R96: `substringExists(d, n)` is true exactly when some window of `n` bytes of `d` tests positive under
`exists`, and false without a command when the window is longer than the data. -/
def Obligations.SubstringExistsIsAnyWindow : Prop :=
  ∀ (s : State) (d : List Byte) (n : Nat), Inv s → s.bitCount.toNat ≠ 0 →
    (d.length < n → substringExists d n s = some (false, s)) ∧
    (1 ≤ n → n ≤ d.length → ∃ r t, substringExists d n s = some (r, t) ∧ SameVector s t ∧
      (r = true ↔ ∃ i u, i + n ≤ d.length ∧ filterExists ((d.drop i).take n) s = some (true, u)))
end

