-- ==== Sys2Proof/Laws/Decode.lean ====
section
/-! SUPPORT. The fields of a command word: taking a field of an assembled word gives the field back, and a word whose
reserved field is 0 is assembled from its fields. -/

namespace Sys2Proof

@[simp] theorem CmdWord.op_mk (o a : Byte) (b : Word) : CmdWord.op (CmdWord.mk o a b) = o := by
  refine BitVec.eq_of_getLsbD_eq fun i hi => ?_
  simp only [CmdWord.op, CmdWord.mk, BitVec.getLsbD_extractLsb', BitVec.getLsbD_append]
  simp [hi, show ¬ 56 + i < 32 by omega, show ¬ 56 + i - 32 < 16 by omega, show ¬ 56 + i - 32 - 16 < 8 by omega,
    show 56 + i - 32 - 16 - 8 = i by omega]

@[simp] theorem CmdWord.a_mk (o a : Byte) (b : Word) : CmdWord.a (CmdWord.mk o a b) = a := by
  refine BitVec.eq_of_getLsbD_eq fun i hi => ?_
  simp only [CmdWord.a, CmdWord.mk, BitVec.getLsbD_extractLsb', BitVec.getLsbD_append]
  simp [hi, show ¬ 48 + i < 32 by omega, show ¬ 48 + i - 32 < 16 by omega, show 48 + i - 32 - 16 = i by omega]

@[simp] theorem CmdWord.rsv_mk (o a : Byte) (b : Word) : CmdWord.rsv (CmdWord.mk o a b) = 0 := by
  refine BitVec.eq_of_getLsbD_eq fun i hi => ?_
  simp only [CmdWord.rsv, CmdWord.mk, BitVec.getLsbD_extractLsb', BitVec.getLsbD_append]
  simp [show ¬ 32 + i < 32 by omega, hi]

@[simp] theorem CmdWord.b_mk (o a : Byte) (b : Word) : CmdWord.b (CmdWord.mk o a b) = b := by
  refine BitVec.eq_of_getLsbD_eq fun i hi => ?_
  simp only [CmdWord.b, CmdWord.mk, BitVec.getLsbD_extractLsb', BitVec.getLsbD_append]
  simp [hi]

/-- A word is its four fields. -/
theorem CmdWord.eq_fields (w : CmdWord) :
    w = CmdWord.op w ++ CmdWord.a w ++ CmdWord.rsv w ++ CmdWord.b w := by
  refine BitVec.eq_of_getLsbD_eq fun i hi => ?_
  simp only [CmdWord.op, CmdWord.a, CmdWord.rsv, CmdWord.b, BitVec.getLsbD_extractLsb', BitVec.getLsbD_append]
  rcases Nat.lt_or_ge i 32 with h | h
  · simp [h]
  · rcases Nat.lt_or_ge i 48 with h' | h'
    · simp [show ¬ i < 32 by omega, show i - 32 < 16 by omega, show 32 + (i - 32) = i by omega]
    · rcases Nat.lt_or_ge i 56 with h'' | h''
      · simp [show ¬ i < 32 by omega, show ¬ i - 32 < 16 by omega, show i - 32 - 16 < 8 by omega,
          show 48 + (i - 32 - 16) = i by omega]
      · simp [show ¬ i < 32 by omega, show ¬ i - 32 < 16 by omega, show ¬ i - 32 - 16 < 8 by omega,
          show i - 32 - 16 - 8 < 8 by omega, show 56 + (i - 32 - 16 - 8) = i by omega]

/-- A word with a zero reserved field is assembled from the others. -/
theorem CmdWord.mk_fields (w : CmdWord) (h : CmdWord.rsv w = 0) :
    CmdWord.mk (CmdWord.op w) (CmdWord.a w) (CmdWord.b w) = w := by
  conv_rhs => rw [CmdWord.eq_fields w, h]
  rfl

/-- Four fields put together and masked field by field (rule R46's test). -/
theorem CmdWord.and_eq_iff (w : CmdWord) (m p : CmdWord) :
    w &&& m = p ↔ CmdWord.op w &&& CmdWord.op m = CmdWord.op p ∧ CmdWord.a w &&& CmdWord.a m = CmdWord.a p ∧
      CmdWord.rsv w &&& CmdWord.rsv m = CmdWord.rsv p ∧ CmdWord.b w &&& CmdWord.b m = CmdWord.b p := by
  constructor
  · rintro rfl
    simp [CmdWord.op, CmdWord.a, CmdWord.rsv, CmdWord.b, BitVec.extractLsb'_and]
  · rintro ⟨h1, h2, h3, h4⟩
    rw [CmdWord.eq_fields (w &&& m), CmdWord.eq_fields p, ← h1, ← h2, ← h3, ← h4]
    simp only [CmdWord.op, CmdWord.a, CmdWord.rsv, CmdWord.b, BitVec.extractLsb'_and]

@[simp] theorem lowByte_zext (c : Byte) : lowByte (c.setWidth 32) = c := by
  refine BitVec.eq_of_getLsbD_eq fun i hi => ?_
  simp [lowByte, hi, show i < 32 by omega]

@[simp] theorem bitsAbove8_zext (c : Byte) : bitsAbove8 (c.setWidth 32) = 0 := by
  refine BitVec.eq_of_getLsbD_eq fun i hi => ?_
  simp [bitsAbove8]

@[simp] theorem lowByte_pair (d c : Byte) : lowByte ((d ++ c).setWidth 32) = c := by
  refine BitVec.eq_of_getLsbD_eq fun i hi => ?_
  simp only [lowByte, BitVec.getLsbD_extractLsb', BitVec.getLsbD_setWidth, BitVec.getLsbD_append]
  simp [hi, show i < 32 by omega]

@[simp] theorem secondByte_pair (d c : Byte) : secondByte ((d ++ c).setWidth 32) = d := by
  refine BitVec.eq_of_getLsbD_eq fun i hi => ?_
  simp only [secondByte, BitVec.getLsbD_extractLsb', BitVec.getLsbD_setWidth, BitVec.getLsbD_append]
  simp [hi, show 8 + i < 32 by omega]

@[simp] theorem bitsAbove16_pair (d c : Byte) : bitsAbove16 ((d ++ c).setWidth 32) = 0 := by
  refine BitVec.eq_of_getLsbD_eq fun i hi => ?_
  simp only [bitsAbove16, BitVec.getLsbD_extractLsb', BitVec.getLsbD_setWidth, BitVec.getLsbD_append]
  simp [show ¬ 16 + i < 8 by omega, BitVec.getLsbD_of_ge d (16 + i - 8) (by omega)]

/-- A word operand with nothing above its low byte is that byte, zero-extended. -/
theorem zext_lowByte (b : Word) (h : bitsAbove8 b = 0) : (lowByte b).setWidth 32 = b := by
  refine BitVec.eq_of_getLsbD_eq fun i hi => ?_
  have hb : ∀ j, j < 24 → b.getLsbD (8 + j) = false := fun j hj => by
    have := congrArg (fun x => BitVec.getLsbD x j) h
    simpa [bitsAbove8, hj] using this
  simp only [lowByte, BitVec.getLsbD_extractLsb', BitVec.getLsbD_setWidth]
  rcases Nat.lt_or_ge i 8 with h8 | h8
  · simp [hi, h8]
  · rw [show b.getLsbD i = false by simpa [show 8 + (i - 8) = i by omega] using hb (i - 8) (by omega)]
    simp [show ¬ i < 8 by omega]

/-- A word operand with nothing above its low two bytes is those, zero-extended. -/
theorem zext_twoBytes (b : Word) (h : bitsAbove16 b = 0) : (secondByte b ++ lowByte b).setWidth 32 = b := by
  refine BitVec.eq_of_getLsbD_eq fun i hi => ?_
  have hb : ∀ j, j < 16 → b.getLsbD (16 + j) = false := fun j hj => by
    have := congrArg (fun x => BitVec.getLsbD x j) h
    simpa [bitsAbove16, hj] using this
  simp only [lowByte, secondByte, BitVec.getLsbD_extractLsb', BitVec.getLsbD_setWidth, BitVec.getLsbD_append]
  rcases Nat.lt_or_ge i 8 with h8 | h8
  · simp [hi, h8]
  · rcases Nat.lt_or_ge i 16 with h16 | h16
    · simp [hi, show ¬ i < 8 by omega, show i - 8 < 8 by omega, show 8 + (i - 8) = i by omega]
    · rw [show b.getLsbD i = false by simpa [show 16 + (i - 16) = i by omega] using hb (i - 16) (by omega)]
      simp [show ¬ i < 8 by omega, show ¬ i - 8 < 8 by omega]

@[simp] theorem whenZero_eq_some (c : Bool) (i j : Instr) : whenZero c i = some j ↔ c = true ∧ i = j := by
  cases c <;> simp [whenZero]

theorem whenZero_eq_none (c : Bool) (i : Instr) : whenZero c i = none ↔ c = false := by
  cases c <;> simp [whenZero]

/-- Decoding an assembled word reads its fields (rule R48). -/
theorem decode_mk (o a : Byte) (b : Word) : decode (CmdWord.mk o a b) = decodeFields o a b := by
  simp [decode]

/-- A decoded word has a zero reserved field and its other fields name the instruction (rule R48). -/
theorem decode_eq_some {w : CmdWord} {i : Instr} :
    decode w = some i ↔ CmdWord.rsv w = 0 ∧ decodeFields (CmdWord.op w) (CmdWord.a w) (CmdWord.b w) = some i := by
  unfold decode
  split <;> simp_all

/-- The rows of the opcode map, as what each makes of the fields (rules R46, R47). -/
inductive DecodesTo (a : Byte) (b : Word) : Byte → Instr → Prop where
  | bvinit (ha : a = 0) : DecodesTo a b 0x01 (.bvinit b)
  | bvrestore (ha : a = 0) : DecodesTo a b 0x02 (.bvrestore b)
  | bvorb : DecodesTo a b 0x03 (.bvorb b a)
  | bvrdb (ha : a = 0) : DecodesTo a b 0x04 (.bvrdb b)
  | bvset (ha : a = 0) : DecodesTo a b 0x10 (.bvset b)
  | bvtst (ha : a = 0) : DecodesTo a b 0x11 (.bvtst b)
  | bvsetm (ha : a = 0) : DecodesTo a b 0x12 (.bvsetm b)
  | bvtstm (ha : a = 0) : DecodesTo a b 0x13 (.bvtstm b)
  | hclr (ha : a = 0) (hb : b = 0) : DecodesTo a b 0x20 .hclr
  | hpush (ha : a = 0) (hb : bitsAbove8 b = 0) : DecodesTo a b 0x21 (.hpush (lowByte b))
  | hroll (ha : a = 0) (hb : bitsAbove16 b = 0) : DecodesTo a b 0x22 (.hroll (lowByte b) (secondByte b))
  | hset (ha : a = 0) (hb : b = 0) : DecodesTo a b 0x30 .hset
  | htst (ha : a = 0) (hb : b = 0) : DecodesTo a b 0x31 .htst
  | hloc (hb : b = 0) : DecodesTo a b 0x32 (.hloc a)
  | csrr (hb : b = 0) : DecodesTo a b 0x40 (.csrr a)
  | csrw : DecodesTo a b 0x41 (.csrw a b)

/-- One branch of the decoder's chain. -/
theorem decodesTo_ite {o c a : Byte} {b : Word} {i j : Instr} {check : Bool} {rest : Option Instr}
    (h : (if o = c then whenZero check j else rest) = some i)
    (hit : check = true → DecodesTo a b c j) (miss : rest = some i → DecodesTo a b o i) : DecodesTo a b o i := by
  by_cases hc : o = c
  · rw [if_pos hc] at h
    obtain ⟨hk, rfl⟩ := (whenZero_eq_some _ _ _).1 h
    exact hc ▸ hit hk
  · rw [if_neg hc] at h
    exact miss h

/-- The decoder of the fields is the opcode map (rules R46 to R48). -/
theorem decodeFields_eq_some {o a : Byte} {b : Word} {i : Instr} :
    decodeFields o a b = some i ↔ DecodesTo a b o i := by
  constructor
  · intro h
    refine decodesTo_ite h (fun k => .bvinit (by simpa using k)) fun h => ?_
    refine decodesTo_ite h (fun k => .bvrestore (by simpa using k)) fun h => ?_
    refine decodesTo_ite (check := true) h (fun _ => .bvorb) fun h => ?_
    refine decodesTo_ite h (fun k => .bvrdb (by simpa using k)) fun h => ?_
    refine decodesTo_ite h (fun k => .bvset (by simpa using k)) fun h => ?_
    refine decodesTo_ite h (fun k => .bvtst (by simpa using k)) fun h => ?_
    refine decodesTo_ite h (fun k => .bvsetm (by simpa using k)) fun h => ?_
    refine decodesTo_ite h (fun k => .bvtstm (by simpa using k)) fun h => ?_
    refine decodesTo_ite h (fun k => have hk : a = 0 ∧ b = 0 := by simpa using k
      .hclr hk.1 hk.2) fun h => ?_
    refine decodesTo_ite h (fun k => have hk : a = 0 ∧ bitsAbove8 b = 0 := by simpa using k
      .hpush hk.1 hk.2) fun h => ?_
    refine decodesTo_ite h (fun k => have hk : a = 0 ∧ bitsAbove16 b = 0 := by simpa using k
      .hroll hk.1 hk.2) fun h => ?_
    refine decodesTo_ite h (fun k => have hk : a = 0 ∧ b = 0 := by simpa using k
      .hset hk.1 hk.2) fun h => ?_
    refine decodesTo_ite h (fun k => have hk : a = 0 ∧ b = 0 := by simpa using k
      .htst hk.1 hk.2) fun h => ?_
    refine decodesTo_ite h (fun k => .hloc (by simpa using k)) fun h => ?_
    refine decodesTo_ite h (fun k => .csrr (by simpa using k)) fun h => ?_
    exact decodesTo_ite (check := true) h (fun _ => .csrw) fun h => by cases h
  · intro h
    cases h <;> simp [decodeFields, *]

end Sys2Proof
end

