-- ==== Sys2Proof/Laws/Memory.lean ====
section
/-! SUPPORT. The byte memory: a read after a write, the canonical form every operation keeps, and that equal memories
in that form are equal data. -/

namespace Sys2Proof.Machine.Memory

@[simp] theorem read_nil (a : Nat) : read [] a = 0 := rfl

theorem read_erase (m : Memory) (a b : Nat) : read (erase a m) b = if b = a then 0 else read m b := by
  induction m with
  | nil => simp [erase]
  | cons c m ih =>
    by_cases hc : c.1 = a
    · have he : erase a (c :: m) = erase a m := by simp [erase, hc]
      rw [he, ih]
      by_cases hb : b = a
      · simp [hb]
      · simp [hb, read, hc, Ne.symm hb]
    · have he : erase a (c :: m) = c :: erase a m := by simp [erase, hc]
      rw [he]
      by_cases hb : c.1 = b
      · simp [read, hb, show b ≠ a from hb ▸ hc]
      · simp [read, hb, ih]

theorem read_place (m : Memory) (a : Nat) (v : Byte) (b : Nat) (h : read m a = 0) (hm : ∀ c ∈ m, c.1 ≠ a) :
    read (place a v m) b = if b = a then v else read m b := by
  induction m with
  | nil => by_cases hb : a = b <;> simp [place, read, hb, eq_comm, background]
  | cons c m ih =>
    have hca : c.1 ≠ a := hm c (by simp)
    simp only [place]
    split
    · by_cases hb : a = b
      · simp [read, hb]
      · simp [read, hb, Ne.symm hb]
    · have hr : read m a = 0 := by simpa [read, hca] using h
      by_cases hb : c.1 = b
      · simp [read, hb, show b ≠ a from hb ▸ hca]
      · simp [read, hb, ih hr fun d hd => hm d (by simp [hd])]

theorem mem_erase {m : Memory} {a : Nat} {c : Host.Cell} (h : c ∈ erase a m) : c ∈ m ∧ c.1 ≠ a := by
  simpa [erase] using h

/-- What a write does to every read, on any list. -/
theorem read_write (m : Memory) (a : Nat) (v : Byte) (b : Nat) :
    read (write m a v) b = if b = a then v else read m b := by
  unfold write
  split
  · rename_i hv
    simp [read_erase, hv, background]
  · rw [read_place _ _ _ _ (by simp [read_erase]) fun c hc => (mem_erase hc).2, read_erase]
    by_cases hb : b = a <;> simp [hb]

/-- The canonical form, unfolded once. -/
theorem wf_cons (c : Host.Cell) (m : Memory) :
    wf (c :: m) = true ↔ c.2 ≠ 0 ∧ (∀ d ∈ m, c.1 < d.1) ∧ wf m = true := by
  simp [wf, background, and_assoc]

theorem wf_erase (m : Memory) (a : Nat) (h : wf m = true) : wf (erase a m) = true := by
  induction m with
  | nil => simp [erase, wf]
  | cons c m ih =>
    obtain ⟨hv, hlt, hm⟩ := (wf_cons c m).1 h
    by_cases hc : c.1 = a
    · have he : erase a (c :: m) = erase a m := by simp [erase, hc]
      rw [he]; exact ih hm
    · have he : erase a (c :: m) = c :: erase a m := by simp [erase, hc]
      rw [he]
      exact (wf_cons _ _).2 ⟨hv, fun d hd => hlt d (mem_erase hd).1, ih hm⟩

theorem mem_place {m : Memory} {a : Nat} {v : Byte} {c : Host.Cell} (h : c ∈ place a v m) : c = (a, v) ∨ c ∈ m := by
  induction m with
  | nil => simpa [place] using h
  | cons d m ih =>
    simp only [place] at h
    split at h
    · simpa using h
    · rcases List.mem_cons.1 h with h | h
      · simp [h]
      · rcases ih h with h | h <;> simp [h]

theorem wf_place (m : Memory) (a : Nat) (v : Byte) (h : wf m = true) (hv : v ≠ 0) (hm : ∀ c ∈ m, c.1 ≠ a) :
    wf (place a v m) = true := by
  induction m with
  | nil => simpa [place, wf, background] using hv
  | cons c m ih =>
    obtain ⟨hc, hlt, hw⟩ := (wf_cons c m).1 h
    simp only [place]
    split
    · rename_i hac
      refine (wf_cons _ _).2 ⟨hv, fun d hd => ?_, h⟩
      rcases List.mem_cons.1 hd with rfl | hd
      · exact hac
      · exact Nat.lt_trans hac (hlt d hd)
    · rename_i hac
      refine (wf_cons _ _).2 ⟨hc, fun d hd => ?_, ih hw fun d hd => hm d (by simp [hd])⟩
      rcases mem_place hd with rfl | hd
      · exact Nat.lt_of_le_of_ne (Nat.le_of_not_lt hac) (hm c (by simp))
      · exact hlt d hd

/-- A write keeps the canonical form. -/
theorem wf_write (m : Memory) (a : Nat) (v : Byte) (h : wf m = true) : wf (write m a v) = true := by
  unfold write
  split
  · exact wf_erase m a h
  · exact wf_place _ a v (wf_erase m a h) ‹_› fun c hc => (mem_erase hc).2

theorem below_iff (n : Nat) (m : Memory) : below n m = true ↔ ∀ c ∈ m, c.1 < n := by
  simp [below]

/-- A write below `n` lists nothing at or above it. -/
theorem below_write (n : Nat) (m : Memory) (a : Nat) (v : Byte) (h : below n m = true) (ha : a < n) :
    below n (write m a v) = true := by
  rw [below_iff] at *
  intro c hc
  unfold write at hc
  split at hc
  · exact h c (mem_erase hc).1
  · rcases mem_place hc with rfl | hc
    · exact ha
    · exact h c (mem_erase hc).1

/-- Nothing is listed, so 0 is read, at or above the bound. -/
theorem read_of_below (n : Nat) (m : Memory) (h : below n m = true) (a : Nat) (ha : n ≤ a) : read m a = 0 := by
  rw [below_iff] at h
  induction m with
  | nil => rfl
  | cons c m ih =>
    have hc : c.1 ≠ a := by have := h c (by simp); omega
    simpa [read, hc] using ih fun d hd => h d (by simp [hd])

theorem read_eq_zero_of_lt (m : Memory) (a : Nat) (h : ∀ d ∈ m, a < d.1) : read m a = 0 := by
  induction m with
  | nil => rfl
  | cons c m ih =>
    have hc : c.1 ≠ a := by have := h c (by simp); omega
    simpa [read, hc] using ih fun d hd => h d (by simp [hd])

/-- Memories in canonical form that read the same everywhere are the same list. -/
theorem eq_of_read_eq (m n : Memory) (hm : wf m = true) (hn : wf n = true) (h : ∀ a, read m a = read n a) :
    m = n := by
  induction m generalizing n with
  | nil =>
    cases n with
    | nil => rfl
    | cons d n => exact absurd (h d.1).symm (by simpa [read, background] using ((wf_cons d n).1 hn).1)
  | cons c m ih =>
    obtain ⟨hc, hlt, hw⟩ := (wf_cons c m).1 hm
    cases n with
    | nil => exact absurd (h c.1) (by simpa [read, background] using hc)
    | cons d n =>
      obtain ⟨hd, hlt', hw'⟩ := (wf_cons d n).1 hn
      have hcd : c.1 = d.1 := by
        rcases Nat.lt_trichotomy c.1 d.1 with hl | he | hl
        · have := h c.1
          rw [read_eq_zero_of_lt (d :: n) c.1 fun e he => by
            rcases List.mem_cons.1 he with rfl | he
            · exact hl
            · exact Nat.lt_trans hl (hlt' e he)] at this
          exact absurd this (by simpa [read] using hc)
        · exact he
        · have := h d.1
          rw [read_eq_zero_of_lt (c :: m) d.1 fun e he => by
            rcases List.mem_cons.1 he with rfl | he
            · exact hl
            · exact Nat.lt_trans hl (hlt e he)] at this
          exact absurd this.symm (by simpa [read] using hd)
      have hv : c.2 = d.2 := by simpa [read, hcd] using h c.1
      have hmn : m = n := ih n hw hw' fun a => by
        by_cases ha : c.1 = a
        · rw [read_eq_zero_of_lt m a fun e he => ha ▸ hlt e he,
            read_eq_zero_of_lt n a fun e he => ha ▸ hcd ▸ hlt' e he]
        · simpa [read, ha, hcd ▸ ha] using h a
      rw [hmn, show c = d from Prod.ext hcd hv]

end Sys2Proof.Machine.Memory
end

