-- ==== Sys2Proof/Laws/State.lean ====
section
/-! SUPPORT. One lemma per field per named update of the state, each true by `rfl`, so that no later proof unfolds a
record update. -/

namespace Sys2Proof.Machine

variable (s : State)

@[simp] theorem State.offer_buf (r : RspWord) : (s.offer r).buf = s.buf := rfl
@[simp] theorem State.offer_bitCount (r : RspWord) : (s.offer r).bitCount = s.bitCount := rfl
@[simp] theorem State.offer_byteLen (r : RspWord) : (s.offer r).byteLen = s.byteLen := rfl
@[simp] theorem State.offer_nlanes (r : RspWord) : (s.offer r).nlanes = s.nlanes := rfl
@[simp] theorem State.offer_cnt (r : RspWord) : (s.offer r).cnt = s.cnt := rfl
@[simp] theorem State.offer_err (r : RspWord) : (s.offer r).err = s.err := rfl
@[simp] theorem State.offer_lanes (r : RspWord) : (s.offer r).lanes = s.lanes := rfl
@[simp] theorem State.offer_capBytes (r : RspWord) : (s.offer r).capBytes = s.capBytes := rfl
@[simp] theorem State.offer_inbox (r : RspWord) : (s.offer r).inbox = s.inbox := rfl
@[simp] theorem State.offer_rsps (r : RspWord) : (s.offer r).rsps = s.rsps ++ [r] := rfl

@[simp] theorem State.raised_buf (e : ErrCode) : (s.raised e).buf = s.buf := rfl
@[simp] theorem State.raised_bitCount (e : ErrCode) : (s.raised e).bitCount = s.bitCount := rfl
@[simp] theorem State.raised_byteLen (e : ErrCode) : (s.raised e).byteLen = s.byteLen := rfl
@[simp] theorem State.raised_nlanes (e : ErrCode) : (s.raised e).nlanes = s.nlanes := rfl
@[simp] theorem State.raised_cnt (e : ErrCode) : (s.raised e).cnt = s.cnt := rfl
@[simp] theorem State.raised_err (e : ErrCode) : (s.raised e).err = errAfter e s.err := rfl
@[simp] theorem State.raised_lanes (e : ErrCode) : (s.raised e).lanes = s.lanes := rfl
@[simp] theorem State.raised_capBytes (e : ErrCode) : (s.raised e).capBytes = s.capBytes := rfl
@[simp] theorem State.raised_inbox (e : ErrCode) : (s.raised e).inbox = s.inbox := rfl
@[simp] theorem State.raised_rsps (e : ErrCode) : (s.raised e).rsps = s.rsps ++ [rspWord e.status 0] := rfl

@[simp] theorem State.constructed_buf (bits bytes : Word) : (s.constructed bits bytes).buf = [] := rfl
@[simp] theorem State.constructed_bitCount (bits bytes : Word) : (s.constructed bits bytes).bitCount = bits := rfl
@[simp] theorem State.constructed_byteLen (bits bytes : Word) : (s.constructed bits bytes).byteLen = bytes := rfl
@[simp] theorem State.constructed_nlanes (bits bytes : Word) : (s.constructed bits bytes).nlanes = s.nlanes := rfl
@[simp] theorem State.constructed_cnt (bits bytes : Word) : (s.constructed bits bytes).cnt = s.cnt := rfl
@[simp] theorem State.constructed_err (bits bytes : Word) : (s.constructed bits bytes).err = s.err := rfl
@[simp] theorem State.constructed_lanes (bits bytes : Word) : (s.constructed bits bytes).lanes = s.lanes := rfl
@[simp] theorem State.constructed_capBytes (bits bytes : Word) : (s.constructed bits bytes).capBytes = s.capBytes := rfl
@[simp] theorem State.constructed_inbox (bits bytes : Word) : (s.constructed bits bytes).inbox = s.inbox := rfl
@[simp] theorem State.constructed_rsps (bits bytes : Word) : (s.constructed bits bytes).rsps = s.rsps := rfl

@[simp] theorem State.windowCleared_buf : (s.windowCleared).buf = s.buf := rfl
@[simp] theorem State.windowCleared_bitCount : (s.windowCleared).bitCount = s.bitCount := rfl
@[simp] theorem State.windowCleared_byteLen : (s.windowCleared).byteLen = s.byteLen := rfl
@[simp] theorem State.windowCleared_nlanes : (s.windowCleared).nlanes = s.nlanes := rfl
@[simp] theorem State.windowCleared_cnt : (s.windowCleared).cnt = 0 := rfl
@[simp] theorem State.windowCleared_err : (s.windowCleared).err = s.err := rfl
@[simp] theorem State.windowCleared_lanes : (s.windowCleared).lanes = s.lanes.map Lane.cleared := rfl
@[simp] theorem State.windowCleared_capBytes : (s.windowCleared).capBytes = s.capBytes := rfl
@[simp] theorem State.windowCleared_inbox : (s.windowCleared).inbox = s.inbox := rfl
@[simp] theorem State.windowCleared_rsps : (s.windowCleared).rsps = s.rsps := rfl

@[simp] theorem State.windowPushed_buf (cin : Byte) : (s.windowPushed cin).buf = s.buf := rfl
@[simp] theorem State.windowPushed_bitCount (cin : Byte) : (s.windowPushed cin).bitCount = s.bitCount := rfl
@[simp] theorem State.windowPushed_byteLen (cin : Byte) : (s.windowPushed cin).byteLen = s.byteLen := rfl
@[simp] theorem State.windowPushed_nlanes (cin : Byte) : (s.windowPushed cin).nlanes = s.nlanes := rfl
@[simp] theorem State.windowPushed_cnt (cin : Byte) : (s.windowPushed cin).cnt = sat32 (s.cnt.toNat + 1) := rfl
@[simp] theorem State.windowPushed_err (cin : Byte) : (s.windowPushed cin).err = s.err := rfl
@[simp] theorem State.windowPushed_lanes (cin : Byte) : (s.windowPushed cin).lanes = s.lanes.map (Lane.pushed (s.cnt != 0) cin) := rfl
@[simp] theorem State.windowPushed_capBytes (cin : Byte) : (s.windowPushed cin).capBytes = s.capBytes := rfl
@[simp] theorem State.windowPushed_inbox (cin : Byte) : (s.windowPushed cin).inbox = s.inbox := rfl
@[simp] theorem State.windowPushed_rsps (cin : Byte) : (s.windowPushed cin).rsps = s.rsps := rfl

@[simp] theorem State.windowRolled_buf (cin cout : Byte) : (s.windowRolled cin cout).buf = s.buf := rfl
@[simp] theorem State.windowRolled_bitCount (cin cout : Byte) : (s.windowRolled cin cout).bitCount = s.bitCount := rfl
@[simp] theorem State.windowRolled_byteLen (cin cout : Byte) : (s.windowRolled cin cout).byteLen = s.byteLen := rfl
@[simp] theorem State.windowRolled_nlanes (cin cout : Byte) : (s.windowRolled cin cout).nlanes = s.nlanes := rfl
@[simp] theorem State.windowRolled_cnt (cin cout : Byte) : (s.windowRolled cin cout).cnt = s.cnt := rfl
@[simp] theorem State.windowRolled_err (cin cout : Byte) : (s.windowRolled cin cout).err = s.err := rfl
@[simp] theorem State.windowRolled_lanes (cin cout : Byte) : (s.windowRolled cin cout).lanes = s.lanes.map (Lane.rolled cin cout) := rfl
@[simp] theorem State.windowRolled_capBytes (cin cout : Byte) : (s.windowRolled cin cout).capBytes = s.capBytes := rfl
@[simp] theorem State.windowRolled_inbox (cin cout : Byte) : (s.windowRolled cin cout).inbox = s.inbox := rfl
@[simp] theorem State.windowRolled_rsps (cin cout : Byte) : (s.windowRolled cin cout).rsps = s.rsps := rfl

@[simp] theorem State.baseInstalled_buf (k : Nat) (value : Word) : (s.baseInstalled k value).buf = s.buf := rfl
@[simp] theorem State.baseInstalled_bitCount (k : Nat) (value : Word) : (s.baseInstalled k value).bitCount = s.bitCount := rfl
@[simp] theorem State.baseInstalled_byteLen (k : Nat) (value : Word) : (s.baseInstalled k value).byteLen = s.byteLen := rfl
@[simp] theorem State.baseInstalled_nlanes (k : Nat) (value : Word) : (s.baseInstalled k value).nlanes = s.nlanes := rfl
@[simp] theorem State.baseInstalled_cnt (k : Nat) (value : Word) : (s.baseInstalled k value).cnt = 0 := rfl
@[simp] theorem State.baseInstalled_err (k : Nat) (value : Word) : (s.baseInstalled k value).err = s.err := rfl
@[simp] theorem State.baseInstalled_lanes (k : Nat) (value : Word) : (s.baseInstalled k value).lanes = (s.lanes.modify k fun l => { l with base := value }).map Lane.cleared := rfl
@[simp] theorem State.baseInstalled_capBytes (k : Nat) (value : Word) : (s.baseInstalled k value).capBytes = s.capBytes := rfl
@[simp] theorem State.baseInstalled_inbox (k : Nat) (value : Word) : (s.baseInstalled k value).inbox = s.inbox := rfl
@[simp] theorem State.baseInstalled_rsps (k : Nat) (value : Word) : (s.baseInstalled k value).rsps = s.rsps := rfl

@[simp] theorem State.withEvent_buf (e : HostEvent) : (s.withEvent e).buf = s.buf := rfl
@[simp] theorem State.withEvent_bitCount (e : HostEvent) : (s.withEvent e).bitCount = s.bitCount := rfl
@[simp] theorem State.withEvent_byteLen (e : HostEvent) : (s.withEvent e).byteLen = s.byteLen := rfl
@[simp] theorem State.withEvent_nlanes (e : HostEvent) : (s.withEvent e).nlanes = s.nlanes := rfl
@[simp] theorem State.withEvent_cnt (e : HostEvent) : (s.withEvent e).cnt = s.cnt := rfl
@[simp] theorem State.withEvent_err (e : HostEvent) : (s.withEvent e).err = s.err := rfl
@[simp] theorem State.withEvent_lanes (e : HostEvent) : (s.withEvent e).lanes = s.lanes := rfl
@[simp] theorem State.withEvent_capBytes (e : HostEvent) : (s.withEvent e).capBytes = s.capBytes := rfl
@[simp] theorem State.withEvent_inbox (e : HostEvent) : (s.withEvent e).inbox = e :: s.inbox := rfl
@[simp] theorem State.withEvent_rsps (e : HostEvent) : (s.withEvent e).rsps = s.rsps := rfl

@[simp] theorem State.popped_buf : (s.popped).buf = s.buf := rfl
@[simp] theorem State.popped_bitCount : (s.popped).bitCount = s.bitCount := rfl
@[simp] theorem State.popped_byteLen : (s.popped).byteLen = s.byteLen := rfl
@[simp] theorem State.popped_nlanes : (s.popped).nlanes = s.nlanes := rfl
@[simp] theorem State.popped_cnt : (s.popped).cnt = s.cnt := rfl
@[simp] theorem State.popped_err : (s.popped).err = s.err := rfl
@[simp] theorem State.popped_lanes : (s.popped).lanes = s.lanes := rfl
@[simp] theorem State.popped_capBytes : (s.popped).capBytes = s.capBytes := rfl
@[simp] theorem State.popped_inbox : (s.popped).inbox = s.inbox.tail := rfl
@[simp] theorem State.popped_rsps : (s.popped).rsps = s.rsps := rfl

@[simp] theorem State.delivered_buf : (s.delivered).buf = s.buf := rfl
@[simp] theorem State.delivered_bitCount : (s.delivered).bitCount = s.bitCount := rfl
@[simp] theorem State.delivered_byteLen : (s.delivered).byteLen = s.byteLen := rfl
@[simp] theorem State.delivered_nlanes : (s.delivered).nlanes = s.nlanes := rfl
@[simp] theorem State.delivered_cnt : (s.delivered).cnt = s.cnt := rfl
@[simp] theorem State.delivered_err : (s.delivered).err = s.err := rfl
@[simp] theorem State.delivered_lanes : (s.delivered).lanes = s.lanes := rfl
@[simp] theorem State.delivered_capBytes : (s.delivered).capBytes = s.capBytes := rfl
@[simp] theorem State.delivered_inbox : (s.delivered).inbox = s.inbox := rfl
@[simp] theorem State.delivered_rsps : (s.delivered).rsps = s.rsps.tail := rfl

@[simp] theorem State.wasReset_buf : s.wasReset.buf = [] := rfl
@[simp] theorem State.wasReset_bitCount : s.wasReset.bitCount = 0 := rfl
@[simp] theorem State.wasReset_byteLen : s.wasReset.byteLen = 0 := rfl
@[simp] theorem State.wasReset_nlanes : s.wasReset.nlanes = BitVec.ofNat 32 (min 3 s.lanes.length) := rfl
@[simp] theorem State.wasReset_cnt : s.wasReset.cnt = 0 := rfl
@[simp] theorem State.wasReset_err : s.wasReset.err = 0 := rfl
@[simp] theorem State.wasReset_lanes : s.wasReset.lanes = (List.range s.lanes.length).map resetLane := rfl
@[simp] theorem State.wasReset_capBytes : s.wasReset.capBytes = s.capBytes := rfl
@[simp] theorem State.wasReset_inbox : s.wasReset.inbox = s.inbox := rfl
@[simp] theorem State.wasReset_rsps : s.wasReset.rsps = [] := rfl

/-! The lane updates. -/

variable (l : Lane)

@[simp] theorem Lane.cleared_base : l.cleared.base = l.base := rfl
@[simp] theorem Lane.cleared_hash : l.cleared.hash = 0 := rfl
@[simp] theorem Lane.cleared_pow : l.cleared.pow = 1 := rfl
@[simp] theorem Lane.pushed_base (g : Bool) (c : Byte) : (l.pushed g c).base = l.base := rfl
@[simp] theorem Lane.pushed_hash (g : Bool) (c : Byte) : (l.pushed g c).hash = l.hash * l.base + zext32 c := rfl
@[simp] theorem Lane.pushed_pow (g : Bool) (c : Byte) : (l.pushed g c).pow = if g then l.pow * l.base else l.pow := rfl
@[simp] theorem Lane.rolled_base (c d : Byte) : (l.rolled c d).base = l.base := rfl
@[simp] theorem Lane.rolled_hash (c d : Byte) :
    (l.rolled c d).hash = (l.hash - zext32 d * l.pow) * l.base + zext32 c := rfl
@[simp] theorem Lane.rolled_pow (c d : Byte) : (l.rolled c d).pow = l.pow := rfl

end Sys2Proof.Machine
end

