-- ==== Sys2Proof/Laws/Ops.lean ====
section
/-! SUPPORT. One lemma per shared operation that says everything it can do, for the proofs to cite instead of
unfolding it: the byte accesses, the bit primitives and their effect on every bit, the two answers, register access,
and how a step runs one event. -/

namespace Sys2Proof.Machine

/-! ### Byte accesses (rule R33) -/

theorem memRead_of_lt {s : State} {a : Nat} (h : a < s.byteLen.toNat) : memRead s a = some (byteAt s a) := if_pos h

theorem memRead_eq_some {s : State} {a : Nat} {b : Byte} :
    memRead s a = some b ↔ a < s.byteLen.toNat ∧ b = byteAt s a := by
  unfold memRead byteAt
  split <;> simp_all [eq_comm]

/-- The state after a byte is ORed in. -/
def State.ored (s : State) (a : Nat) (v : Byte) : State := { s with buf := Memory.write s.buf a (byteAt s a ||| v) }

theorem orByte_of_lt {s : State} {a : Nat} (v : Byte) (h : a < s.byteLen.toNat) :
    orByte s a v = some (s.ored a v) := by
  simp [orByte, memRead_of_lt h, memWrite, h, State.ored]

theorem orByte_eq_some {s t : State} {a : Nat} {v : Byte} :
    orByte s a v = some t ↔ a < s.byteLen.toNat ∧ t = s.ored a v := by
  by_cases h : a < s.byteLen.toNat
  · simp [orByte_of_lt v h, h, eq_comm]
  · simp [orByte, memRead, h]

@[simp] theorem State.ored_bitCount (s : State) (a : Nat) (v : Byte) : (s.ored a v).bitCount = s.bitCount := rfl
@[simp] theorem State.ored_byteLen (s : State) (a : Nat) (v : Byte) : (s.ored a v).byteLen = s.byteLen := rfl
@[simp] theorem State.ored_nlanes (s : State) (a : Nat) (v : Byte) : (s.ored a v).nlanes = s.nlanes := rfl
@[simp] theorem State.ored_cnt (s : State) (a : Nat) (v : Byte) : (s.ored a v).cnt = s.cnt := rfl
@[simp] theorem State.ored_err (s : State) (a : Nat) (v : Byte) : (s.ored a v).err = s.err := rfl
@[simp] theorem State.ored_lanes (s : State) (a : Nat) (v : Byte) : (s.ored a v).lanes = s.lanes := rfl
@[simp] theorem State.ored_capBytes (s : State) (a : Nat) (v : Byte) : (s.ored a v).capBytes = s.capBytes := rfl
@[simp] theorem State.ored_inbox (s : State) (a : Nat) (v : Byte) : (s.ored a v).inbox = s.inbox := rfl
@[simp] theorem State.ored_rsps (s : State) (a : Nat) (v : Byte) : (s.ored a v).rsps = s.rsps := rfl
@[simp] theorem State.ored_buf (s : State) (a : Nat) (v : Byte) :
    (s.ored a v).buf = Memory.write s.buf a (byteAt s a ||| v) := rfl

theorem byteAt_ored (s : State) (a : Nat) (v : Byte) (b : Nat) :
    byteAt (s.ored a v) b = if b = a then byteAt s a ||| v else byteAt s b :=
  Memory.read_write ..

theorem bitAt_ored (s : State) (a : Nat) (v : Byte) (p : Nat) :
    bitAt (s.ored a v) p = (bitAt s p || (p / 8 == a && v.getLsbD (p % 8))) := by
  unfold bitAt
  rw [byteAt_ored]
  by_cases h : p / 8 = a
  · simp [h]
  · simp [h]

/-- A byte is its eight bits. -/
theorem byteAt_eq_of_bitAt_eq {s t : State} {a : Nat} (h : ∀ j < 8, bitAt t (8 * a + j) = bitAt s (8 * a + j)) :
    byteAt t a = byteAt s a := by
  refine BitVec.eq_of_getLsbD_eq fun j hj => ?_
  have := h j hj
  unfold bitAt at this
  rwa [show (8 * a + j) / 8 = a by omega, show (8 * a + j) % 8 = j by omega] at this

/-! ### The bit primitives (rules R53, R54) -/

theorem bitMask_getLsbD (p j : Nat) (hj : j < 8) : (bitMask p).getLsbD j = (j == p % 8) := by
  have h : ∀ k < 8, ∀ j < 8, (1#8 <<< k).getLsbD j = (j == k) := by decide
  exact h _ (Nat.mod_lt _ (by omega)) _ hj

theorem setBit_of_lt {s : State} {p : Nat} (h : p / 8 < s.byteLen.toNat) :
    setBit s p = some (s.ored (p / 8) (bitMask p)) := orByte_of_lt _ h

theorem setBit_eq_some {s t : State} {p : Nat} :
    setBit s p = some t ↔ p / 8 < s.byteLen.toNat ∧ t = s.ored (p / 8) (bitMask p) := orByte_eq_some

theorem bitAt_setBit (s : State) (p q : Nat) : bitAt (s.ored (p / 8) (bitMask p)) q = (bitAt s q || q == p) := by
  rw [bitAt_ored, bitMask_getLsbD _ _ (Nat.mod_lt _ (by omega))]
  congr 1
  rw [Bool.eq_iff_iff]
  simp
  omega

theorem isBitSet_eq {s : State} {p : Nat} (h : p / 8 < s.byteLen.toNat) : isBitSet s p = some (bitAt s p) := by
  have hb : ∀ b : Byte, (b &&& bitMask p != 0) = b.getLsbD (p % 8) := by
    intro b
    have hp : p % 8 < 8 := Nat.mod_lt _ (by omega)
    rw [Bool.eq_iff_iff, bne_iff_ne, Ne]
    constructor
    · intro hne
      by_contra hc
      refine hne (BitVec.eq_of_getLsbD_eq fun j hj => ?_)
      rw [BitVec.getLsbD_and, bitMask_getLsbD _ _ hj]
      by_cases hjp : j = p % 8
      · simp [hjp, Bool.not_eq_true _ ▸ hc]
      · simp [hjp]
    · intro hc hz
      have := congrArg (fun x => BitVec.getLsbD x (p % 8)) hz
      simp only [BitVec.getLsbD_and, bitMask_getLsbD _ _ hp] at this
      simp [hc] at this
  unfold isBitSet
  rw [memRead_of_lt (show byteIndex p < _ from h), Option.map_some, hb]
  rfl

theorem isBitSet_eq_some {s : State} {p : Nat} {b : Bool} :
    isBitSet s p = some b ↔ p / 8 < s.byteLen.toNat ∧ b = bitAt s p := by
  by_cases h : p / 8 < s.byteLen.toNat
  · simp [isBitSet_eq h, h, eq_comm]
  · simp [isBitSet, memRead, byteIndex, h]

/-- What a run of byte ORs below `BYTELEN` can do to the buffer. -/
inductive OrRun (s : State) : State → Prop where
  | done : OrRun s s
  | more {t : State} (h : OrRun s t) (a : Nat) (v : Byte) (ha : a < s.byteLen.toNat) : OrRun s (t.ored a v)

namespace OrRun

variable {s t : State}

/-- Only the buffer differs. -/
theorem eq_buf (h : OrRun s t) : t = { s with buf := t.buf } := by
  induction h with
  | done => rfl
  | more h a v ha ih => rw [ih]; rfl

theorem bit_kept (h : OrRun s t) (p : Nat) (hp : bitAt s p = true) : bitAt t p = true := by
  induction h with
  | done => exact hp
  | more h a v ha ih => simp [bitAt_ored, ih]

theorem wf_kept (h : OrRun s t) (hw : Memory.wf s.buf = true) : Memory.wf t.buf = true := by
  induction h with
  | done => exact hw
  | more h a v ha ih => exact Memory.wf_write _ _ _ ih

theorem below_kept (h : OrRun s t) (hb : Memory.below s.byteLen.toNat s.buf = true) :
    Memory.below s.byteLen.toNat t.buf = true := by
  induction h with
  | done => exact hb
  | more h a v ha ih => exact Memory.below_write _ _ _ _ ih ha

end OrRun

theorem setBits_cons (s : State) (p : Nat) (ps : List Nat) :
    setBits s (p :: ps) = (setBit s p).bind fun t => setBits t ps := rfl

/-- `setBit` at positions that all lie in existing bytes: it succeeds, and the bits set are exactly those. -/
theorem setBits_spec (ps : List Nat) (s : State) (h : ∀ p ∈ ps, p / 8 < s.byteLen.toNat) :
    ∃ t, setBits s ps = some t ∧ OrRun s t ∧ ∀ q, bitAt t q = true ↔ bitAt s q = true ∨ q ∈ ps := by
  suffices H : ∀ (ps : List Nat) (u : State), OrRun s u → (∀ p ∈ ps, p / 8 < s.byteLen.toNat) →
      ∃ t, setBits u ps = some t ∧ OrRun s t ∧ ∀ q, bitAt t q = true ↔ bitAt u q = true ∨ q ∈ ps from
    H ps s .done h
  intro ps
  induction ps with
  | nil => exact fun u hu _ => ⟨u, rfl, hu, fun q => by simp⟩
  | cons p ps ih =>
    intro u hu hps
    have hp : p / 8 < u.byteLen.toNat := by rw [hu.eq_buf]; exact hps p (by simp)
    obtain ⟨t, ht, hr, hq⟩ := ih (u.ored (p / 8) (bitMask p)) (hu.more _ _ (hps p (by simp)))
      fun q hq => hps q (by simp [hq])
    refine ⟨t, by rw [setBits_cons, setBit_of_lt hp]; exact ht, hr, fun q => ?_⟩
    rw [hq, bitAt_setBit]
    simp [or_assoc]

/-- Any success of `setBits` is a run of ORs. -/
theorem setBits_orRun (ps : List Nat) (s t : State) (h : setBits s ps = some t) :
    (∀ p ∈ ps, p / 8 < s.byteLen.toNat) ∧ OrRun s t := by
  suffices H : ∀ (ps : List Nat) (u : State), OrRun s u → setBits u ps = some t →
      (∀ p ∈ ps, p / 8 < s.byteLen.toNat) ∧ OrRun s t from H ps s .done h
  intro ps
  induction ps with
  | nil => intro u hu h; simp only [setBits, Option.some.injEq] at h; exact ⟨by simp, h ▸ hu⟩
  | cons p ps ih =>
    intro u hu h
    rw [setBits_cons] at h
    obtain ⟨w, hw, h⟩ := Option.bind_eq_some_iff.1 h
    obtain ⟨hlt, rfl⟩ := setBit_eq_some.1 hw
    have hlt' : p / 8 < s.byteLen.toNat := by rw [hu.eq_buf] at hlt; exact hlt
    obtain ⟨hps, hr⟩ := ih _ (hu.more _ _ hlt') h
    exact ⟨fun q hq => by rcases List.mem_cons.1 hq with rfl | hq; exacts [hlt', hps q hq], hr⟩

/-- A byte that holds none of the positions is as before. -/
theorem byteAt_setBits {ps : List Nat} {s t : State} (h : setBits s ps = some t) {a : Nat}
    (ha : ∀ p ∈ ps, a ≠ p / 8) : byteAt t a = byteAt s a := by
  induction ps generalizing s with
  | nil => cases h; rfl
  | cons p ps ih =>
    rw [setBits_cons] at h
    obtain ⟨w, hw, h⟩ := Option.bind_eq_some_iff.1 h
    obtain ⟨-, rfl⟩ := setBit_eq_some.1 hw
    rw [ih h fun q hq => ha q (by simp [hq]), byteAt_ored, if_neg (ha p (by simp))]

/-- `isBitSet` at positions that all lie in existing bytes: the answer is whether all are set. -/
theorem allBitsSet_spec (ps : List Nat) (s : State) (h : ∀ p ∈ ps, p / 8 < s.byteLen.toNat) :
    allBitsSet s ps = some (ps.all fun p => bitAt s p) := by
  induction ps with
  | nil => rfl
  | cons p ps ih => simp [allBitsSet, isBitSet_eq (h p (by simp)), ih fun q hq => h q (by simp [hq])]

theorem allBitsSet_eq_some (ps : List Nat) (s : State) (r : Bool) (h : allBitsSet s ps = some r) :
    (∀ p ∈ ps, p / 8 < s.byteLen.toNat) ∧ r = ps.all fun p => bitAt s p := by
  induction ps generalizing r with
  | nil => simpa [allBitsSet, eq_comm] using h
  | cons p ps ih =>
    simp only [allBitsSet] at h
    obtain ⟨b, hb, h⟩ := Option.bind_eq_some_iff.1 h
    obtain ⟨q, hq, rfl⟩ := Option.map_eq_some_iff.1 h
    obtain ⟨hlt, rfl⟩ := isBitSet_eq_some.1 hb
    obtain ⟨hps, rfl⟩ := ih _ hq
    exact ⟨fun q hq => by rcases List.mem_cons.1 hq with rfl | hq; exacts [hlt, hps q hq], by simp⟩

/-! ### Positions of the lanes (rule R75) -/

theorem mem_lanePositions {lanes : List Lane} {n : Nat} {bc : Word} {p : Nat} :
    p ∈ lanePositions lanes n bc ↔ ∃ k, k < n ∧ lanes[k]?.map (fun l => l.hash.toNat % bc.toNat) = some p := by
  simp only [lanePositions, reduced, List.mem_map, BitVec.toNat_umod, Option.map_eq_some_iff]
  constructor
  · rintro ⟨l, hl, rfl⟩
    obtain ⟨k, hk, rfl⟩ := List.mem_iff_getElem.1 hl
    simp only [List.length_take] at hk
    exact ⟨k, by omega, lanes[k], by simp [show k < lanes.length by omega], by simp⟩
  · rintro ⟨k, hk, l, hl, rfl⟩
    obtain ⟨hk', rfl⟩ := List.getElem?_eq_some_iff.1 hl
    exact ⟨lanes[k], List.mem_iff_getElem.2 ⟨k, by simp [hk, hk'], by simp⟩, rfl⟩

theorem mem_activePositions {s : State} {p : Nat} :
    p ∈ s.activePositions ↔ ∃ k, k < s.nlanes.toNat ∧ laneLoc s k = some p := mem_lanePositions

/-- Active positions lie in the bit space, so in bytes that exist. -/
theorem activePositions_lt {s : State} (h0 : s.bitCount ≠ 0) {p : Nat} (hp : p ∈ s.activePositions) :
    p < s.bitCount.toNat := by
  obtain ⟨k, -, h⟩ := mem_activePositions.1 hp
  obtain ⟨l, -, rfl⟩ := Option.map_eq_some_iff.1 h
  exact Nat.mod_lt _ (Nat.pos_of_ne_zero fun h => h0 (BitVec.eq_of_toNat_eq (by simpa using h)))

theorem byteIndex_lt_of_sized {s : State} (h : Sized s) {p : Nat} (hp : p < s.bitCount.toNat) :
    p / 8 < s.byteLen.toNat := by
  unfold Sized at h
  omega

/-! ### The two answers (rules R45, R103) -/

theorem rspWord_toNat (st : Byte) (d : Word) : (rspWord st d).toNat = st.toNat * 2 ^ 56 + d.toNat := by
  have h : rspWord st d = BitVec.ofNat 64 (st.toNat * 2 ^ 56 + d.toNat) := by
    refine BitVec.eq_of_getLsbD_eq fun i hi => ?_
    simp only [rspWord, BitVec.getLsbD_append, BitVec.getLsbD_ofNat]
    rw [show st.toNat * 2 ^ 56 + d.toNat = 2 ^ 56 * st.toNat + d.toNat by ring,
      Nat.testBit_two_pow_mul_add _ (by have := d.isLt; omega)]
    rcases Nat.lt_or_ge i 32 with h | h
    · simp [h, hi, show i < 56 by omega, BitVec.getLsbD]
    · rcases Nat.lt_or_ge i 56 with h' | h'
      · simp [h', hi, show ¬ i < 32 by omega, show i - 32 < 24 by omega]
        exact (BitVec.getLsbD_of_ge d i h)
      · simp [hi, show ¬ i < 32 by omega, show ¬ i - 32 < 24 by omega, show ¬ i < 56 by omega,
          show i - 32 - 24 = i - 56 by omega, BitVec.getLsbD]
  rw [h, BitVec.toNat_ofNat, Nat.mod_eq_of_lt]
  have := st.isLt
  have := d.isLt
  omega

theorem rspWord_ok (d : Word) : rspWord 0 d = BitVec.ofNat 64 d.toNat := by
  apply BitVec.eq_of_toNat_eq
  rw [rspWord_toNat, BitVec.toNat_ofNat, Nat.mod_eq_of_lt] <;> have := d.isLt
  · simp
  · omega

theorem rspWord_error (e : ErrCode) : rspWord e.status 0 = BitVec.ofNat 64 (e.number * 2 ^ 56) := by
  cases e <;> decide

theorem respond_eq (d : Word) (s : State) : respond d s = .next (s.offer (rspWord 0 d)) := rfl

theorem raise_eq (e : ErrCode) (s : State) : raise e s = .next (s.raised e) := rfl

theorem answersOk_offer (s t : State) (d : Word) (hr : t.rsps = s.rsps) (he : t.err = s.err) :
    AnswersOk s (t.offer (rspWord 0 d)) d.toNat := ⟨by rw [State.offer_rsps, hr, rspWord_ok], by simpa using he⟩

theorem errBit_getLsbD (e : ErrCode) (j : Nat) (hj : j < 32) : e.bit.getLsbD j = (j == e.number) := by
  unfold ErrCode.bit
  simp only [BitVec.getLsbD_shiftLeft, BitVec.getLsbD_one, hj]
  have h1 : 1 ≤ e.number := by cases e <;> decide
  rw [Bool.eq_iff_iff]
  simp
  omega

theorem answersError_raised (s : State) (e : ErrCode) : AnswersError s (s.raised e) e.number :=
  ⟨by rw [← rspWord_error]; rfl, fun j hj => by
    simp [errAfter, errBit_getLsbD e j hj]⟩

/-- Raising an error answers one. -/
theorem answeredError_raised (s : State) (e : ErrCode) : AnsweredError s (s.raised e) :=
  ⟨_, rfl, by rw [rspWord_toNat]; cases e <;> decide⟩

/-- Responding answers none. -/
theorem not_answeredError_offer {s u : State} (d : Word) (h : u.rsps = s.rsps) :
    ¬ AnsweredError s (u.offer (rspWord 0 d)) := by
  rintro ⟨r, hr, hne⟩
  obtain rfl : rspWord 0 d = r := by simpa [h] using hr
  rw [rspWord_toNat] at hne
  have := d.isLt
  simp at hne
  omega

theorem withByte_some {α : Type} (a : Nat) (x : α) (k : α → Result) : withByte a (some x) k = k x := rfl

theorem withByte_eq_next {α : Type} {a : Nat} {o : Option α} {k : α → Result} {t : State}
    (h : withByte a o k = .next t) : ∃ x, o = some x ∧ k x = .next t := by
  cases o with
  | none => simp [withByte] at h
  | some x => exact ⟨x, rfl, h⟩

/-! ### One event (rules R42, R43) -/

theorem step_nil {s : State} (h : s.inbox = []) : step s = .next s := by
  simp [step, runNextEvent, h]

theorem step_cons {s : State} {e : HostEvent} {rest : List HostEvent} (h : s.inbox = e :: rest) :
    step s = acceptEvent e { s with inbox := rest } := by
  simp [step, runNextEvent, h, State.popped]

theorem step_withEvent (s : State) (e : HostEvent) : step (s.withEvent e) = acceptEvent e s :=
  step_cons (s := s.withEvent e) rfl

theorem acceptWord_some {w : CmdWord} {i : Instr} (h : decode w = some i) (s : State) :
    acceptWord w s = exec i s := by
  simp [acceptWord, h]

theorem acceptWord_none {w : CmdWord} (h : decode w = none) (s : State) :
    acceptWord w s = .next (s.raised .illegal) := by
  simp [acceptWord, h, illegalWord, raise_eq]

end Sys2Proof.Machine
end

