-- ==== Sys2Proof/Laws/Exec.lean ====
section
/-! SUPPORT. What a command can do, said once: `exec` ends in an error answer of the unchanged state, or in an OK
answer of the one state `OkEffect` names. Every frame and invariant is a case analysis of this lemma. -/

namespace Sys2Proof.Machine

/-! ### CSR numbers (rule R20) -/

theorem csrOfNumber_nlanes {n : Byte} : csrOfNumber n = some .nlanes ↔ n.toNat = 4 := by
  have : ∀ n : Byte, csrOfNumber n = some .nlanes ↔ n.toNat = 4 := by decide
  exact this n

theorem csrOfNumber_hbase {n : Byte} {k : Nat} : csrOfNumber n = some (.hbase k) ↔ k < 16 ∧ n.toNat = 0x10 + k := by
  unfold csrOfNumber scalarCsr
  split_ifs <;> simp <;> omega

theorem csrOfNumber_hpow {n : Byte} {k : Nat} : csrOfNumber n = some (.hpow k) ↔ k < 16 ∧ n.toNat = 0x20 + k := by
  unfold csrOfNumber scalarCsr
  split_ifs <;> simp <;> omega

theorem csrOfNumber_hash {n : Byte} {k : Nat} : csrOfNumber n = some (.hash k) ↔ k < 16 ∧ n.toNat = 0x30 + k := by
  unfold csrOfNumber scalarCsr
  split_ifs <;> simp <;> omega

/-! ### The inversion -/

/-- What a command leaves when it answers OK, the response apart. -/
def OkEffect (s : State) : Instr → State → Prop
  | .bvinit n, u => ceil8 n.toNat ≤ s.capBytes.toNat ∧ u = s.constructed n (BitVec.ofNat 32 (ceil8 n.toNat))
  | .bvrestore len, u => len.toNat ≤ s.capBytes.toNat ∧ u = s.constructed (8 * len) len
  | .bvorb addr byte, u => addr.toNat < s.byteLen.toNat ∧ u = s.ored addr.toNat byte
  | .bvrdb _, u => u = s
  | .bvset pos, u => pos.toNat < s.bitCount.toNat ∧ pos.toNat / 8 < s.byteLen.toNat ∧
      u = s.ored (pos.toNat / 8) (bitMask pos.toNat)
  | .bvtst _, u => u = s
  | .bvsetm v, u => s.bitCount ≠ 0 ∧ (v % s.bitCount).toNat / 8 < s.byteLen.toNat ∧
      u = s.ored ((v % s.bitCount).toNat / 8) (bitMask (v % s.bitCount).toNat)
  | .bvtstm _, u => u = s
  | .hclr, u => u = s.windowCleared
  | .hpush cin, u => u = s.windowPushed cin
  | .hroll cin cout, u => s.cnt ≠ 0 ∧ u = s.windowRolled cin cout
  | .hset, u => s.bitCount ≠ 0 ∧ setBits s s.activePositions = some u
  | .htst, u => u = s
  | .hloc _, u => u = s
  | .csrr _, u => u = s
  | .csrw csr value, u =>
    (csr.toNat = 4 ∧ 1 ≤ value.toNat ∧ value.toNat ≤ s.lanes.length ∧ u = { s with nlanes := value }) ∨
      ∃ k, csr.toNat = 0x10 + k ∧ k < 16 ∧ k < s.lanes.length ∧ u = s.baseInstalled k value

/-- An error answer, or an OK answer of a state `P` holds of. -/
def Ends (s : State) (P : State → Prop) (r : Result) : Prop :=
  ∀ t, r = .next t → (∃ e, t = s.raised e) ∨ ∃ u d, P u ∧ t = u.offer (rspWord 0 d)

theorem ends_raise {s : State} {P : State → Prop} {e : ErrCode} : Ends s P (raise e s) := by
  intro t h
  cases h
  exact .inl ⟨e, rfl⟩

theorem ends_respond {s u : State} {P : State → Prop} (d : Word) (h : P u) : Ends s P (respond d u) := by
  intro t ht
  cases ht
  exact .inr ⟨u, d, h, rfl⟩

theorem ends_withByte {α : Type} {s : State} {P : State → Prop} {a : Nat} {o : Option α} {k : α → Result}
    (h : ∀ x, o = some x → Ends s P (k x)) : Ends s P (withByte a o k) := by
  intro t ht
  obtain ⟨x, hx, hk⟩ := withByte_eq_next ht
  exact h x hx t hk

theorem ends_ite {s : State} {P : State → Prop} {c : Prop} [Decidable c] {a b : Result}
    (ha : c → Ends s P a) (hb : ¬ c → Ends s P b) : Ends s P (if c then a else b) := by
  split
  · exact ha ‹_›
  · exact hb ‹_›

/-- What `CSRW` can do to a named register. -/
theorem ends_csrWrite (s : State) (csr : Byte) (value : Word) (c : Csr) (h : csrOfNumber csr = some c) :
    Ends s (OkEffect s (.csrw csr value)) (csrWrite value s c) := by
  cases c with
  | nlanes =>
    exact ends_ite (fun _ => ends_raise) fun hc =>
      ends_respond _ (.inl ⟨csrOfNumber_nlanes.1 h, by simp only [State.lanesMax] at hc; omega,
        by simp only [State.lanesMax] at hc; omega, rfl⟩)
  | hbase k =>
    exact ends_ite (fun hk => ends_respond _ (.inr ⟨k, (csrOfNumber_hbase.1 h).2, (csrOfNumber_hbase.1 h).1, hk, rfl⟩))
      fun _ => ends_raise
  | _ => exact ends_raise

/-- Everything a command can do. -/
theorem exec_ends (i : Instr) (s : State) : Ends s (OkEffect s i) (exec i s) := by
  cases i with
  | bvinit n => exact ends_ite (fun _ => ends_raise) fun h => ends_respond _ ⟨Nat.le_of_not_lt h, rfl⟩
  | bvrestore len => exact ends_ite (fun _ => ends_raise) fun h => ends_respond _ ⟨Nat.le_of_not_lt h, rfl⟩
  | bvorb addr byte =>
    exact ends_ite (fun _ => ends_raise) fun _ => ends_withByte fun t ht => ends_respond _ (orByte_eq_some.1 ht)
  | bvrdb addr => exact ends_ite (fun _ => ends_raise) fun _ => ends_withByte fun _ _ => ends_respond _ rfl
  | bvset pos =>
    exact ends_ite (fun _ => ends_raise) fun h => ends_withByte fun t ht =>
      ends_respond _ ⟨Nat.lt_of_not_le h, setBit_eq_some.1 ht⟩
  | bvtst pos => exact ends_ite (fun _ => ends_raise) fun _ => ends_withByte fun _ _ => ends_respond _ rfl
  | bvsetm v =>
    exact ends_ite (fun _ => ends_raise) fun h => ends_withByte fun t ht =>
      ends_respond _ ⟨h, setBit_eq_some.1 ht⟩
  | bvtstm v => exact ends_ite (fun _ => ends_raise) fun _ => ends_withByte fun _ _ => ends_respond _ rfl
  | hclr => exact ends_respond _ rfl
  | hpush cin => exact ends_respond _ rfl
  | hroll cin cout => exact ends_ite (fun _ => ends_raise) fun h => ends_respond _ ⟨h, rfl⟩
  | hset =>
    exact ends_ite (fun _ => ends_raise) fun h => ends_withByte fun t ht => ends_respond _ ⟨h, ht⟩
  | htst => exact ends_ite (fun _ => ends_raise) fun _ => ends_withByte fun _ _ => ends_respond _ rfl
  | hloc k =>
    show Ends s _ (execHloc k s)
    unfold execHloc
    split
    · exact ends_raise
    · exact ends_ite (fun _ => ends_raise) fun _ => ends_respond _ rfl
  | csrr csr =>
    show Ends s _ (execCsrr csr s)
    unfold execCsrr
    split
    · exact ends_respond _ rfl
    · exact ends_raise
  | csrw csr value =>
    show Ends s _ (execCsrw csr value s)
    unfold execCsrw
    split
    · exact ends_csrWrite _ _ _ _ ‹_›
    · exact ends_raise

/-- Everything a command can do, as a case analysis. -/
theorem exec_cases {i : Instr} {s t : State} (h : exec i s = .next t) :
    (∃ e, t = s.raised e) ∨ ∃ u d, OkEffect s i u ∧ t = u.offer (rspWord 0 d) :=
  exec_ends i s t h

/-- A command that constructs nothing leaves a buffer that a run of byte ORs leaves. -/
theorem okEffect_orRun {i : Instr} {s u : State} (h : OkEffect s i u) (hk : keepsVectorInstr i = true) :
    ∃ v, OrRun s v ∧ u.buf = v.buf ∧ u.bitCount = s.bitCount ∧ u.byteLen = s.byteLen := by
  cases i with
  | bvinit n => simp [keepsVectorInstr] at hk
  | bvrestore len => simp [keepsVectorInstr] at hk
  | bvorb addr byte => exact ⟨u, h.2 ▸ .more .done _ _ h.1, rfl, by rw [h.2]; rfl, by rw [h.2]; rfl⟩
  | bvset pos => exact ⟨u, h.2.2 ▸ .more .done _ _ h.2.1, rfl, by rw [h.2.2]; rfl, by rw [h.2.2]; rfl⟩
  | bvsetm v => exact ⟨u, h.2.2 ▸ .more .done _ _ h.2.1, rfl, by rw [h.2.2]; rfl, by rw [h.2.2]; rfl⟩
  | hset =>
    have hr := (setBits_orRun _ _ _ h.2).2
    exact ⟨u, hr, rfl, by rw [hr.eq_buf], by rw [hr.eq_buf]⟩
  | hroll cin cout => exact ⟨s, .done, by rw [h.2]; rfl, by rw [h.2]; rfl, by rw [h.2]; rfl⟩
  | csrw csr value =>
    obtain ⟨-, -, -, rfl⟩ | ⟨k, -, -, -, rfl⟩ := h <;> exact ⟨s, .done, rfl, rfl, rfl⟩
  | bvrdb _ => exact ⟨s, .done, by rw [show u = s from h], by rw [show u = s from h], by rw [show u = s from h]⟩
  | bvtst _ => exact ⟨s, .done, by rw [show u = s from h], by rw [show u = s from h], by rw [show u = s from h]⟩
  | bvtstm _ => exact ⟨s, .done, by rw [show u = s from h], by rw [show u = s from h], by rw [show u = s from h]⟩
  | htst => exact ⟨s, .done, by rw [show u = s from h], by rw [show u = s from h], by rw [show u = s from h]⟩
  | hloc _ => exact ⟨s, .done, by rw [show u = s from h], by rw [show u = s from h], by rw [show u = s from h]⟩
  | csrr _ => exact ⟨s, .done, by rw [show u = s from h], by rw [show u = s from h], by rw [show u = s from h]⟩
  | hclr => exact ⟨s, .done, by rw [show u = _ from h]; rfl, by rw [show u = _ from h]; rfl, by rw [show u = _ from h]; rfl⟩
  | hpush _ => exact ⟨s, .done, by rw [show u = _ from h]; rfl, by rw [show u = _ from h]; rfl, by rw [show u = _ from h]; rfl⟩

end Sys2Proof.Machine
end

