-- ==== Sys2Proof/Laws/Hash.lean ====
section
/-! SUPPORT. The polynomial hash: one byte more at the end, one byte fewer at the front, and the passage to 32 bits
(rules R70 to R72). -/

namespace Sys2Proof.Machine

@[simp] theorem poly_nil (p : Nat) : poly p [] = 0 := rfl

theorem poly_cons (p : Nat) (c : Byte) (b : List Byte) : poly p (c :: b) = c.toNat * p ^ b.length + poly p b := rfl

/-- Horner's step (rule R71). -/
theorem poly_concat (p : Nat) (b : List Byte) (c : Byte) : poly p (b ++ [c]) = poly p b * p + c.toNat := by
  induction b with
  | nil => simp [poly]
  | cons d b ih => simp [poly_cons, ih, pow_succ]; ring

/-- The rolling identity over the integers (rules R72, R120), for any outgoing byte. -/
theorem poly_roll (p : Nat) (c : Byte) (a : List Byte) (cin cout : Byte) :
    (((poly p (c :: a) : Int) - cout.toNat * p ^ a.length) * p + cin.toNat) =
      (poly p (a ++ [cin]) : Int) + ((c.toNat : Int) - cout.toNat) * p ^ (a.length + 1) := by
  rw [poly_concat, poly_cons]
  push_cast
  ring

theorem ofNat_toNat_mul (a b : Nat) : BitVec.ofNat 32 a * BitVec.ofNat 32 b = BitVec.ofNat 32 (a * b) :=
  (BitVec.ofNat_mul ..).symm

theorem ofNat_toNat_add (a b : Nat) : BitVec.ofNat 32 a + BitVec.ofNat 32 b = BitVec.ofNat 32 (a + b) :=
  (BitVec.ofNat_add ..).symm

theorem zext32_eq (c : Byte) : zext32 c = BitVec.ofNat 32 c.toNat := by
  apply BitVec.eq_of_toNat_eq
  simp [zext32]

theorem word_eq_ofNat (x : Word) : x = BitVec.ofNat 32 x.toNat := by simp

/-- A push in a lane that holds `b` (rule R68); `grown` says that `b` is not empty. -/
theorem Lane.pushed_window (l : Lane) (b : List Byte) (c : Byte) (g : Bool) (hg : g = true ↔ b ≠ []) :
    (l.window b).pushed g c = l.window (b ++ [c]) := by
  have hpow : (if g then BitVec.ofNat 32 (l.base.toNat ^ (b.length - 1)) * l.base
      else BitVec.ofNat 32 (l.base.toNat ^ (b.length - 1))) = BitVec.ofNat 32 (l.base.toNat ^ b.length) := by
    cases b with
    | nil => simp [show g = false by simpa using hg]
    | cons d b =>
      rw [if_pos (hg.2 (by simp))]
      conv_lhs => rw [word_eq_ofNat l.base]
      rw [ofNat_toNat_mul]
      simp [pow_succ]
  have hhash : poly32 l.base b * l.base + zext32 c = poly32 l.base (b ++ [c]) := by
    simp only [poly32, poly_concat, zext32_eq]
    conv_lhs => rw [show BitVec.ofNat 32 (poly l.base.toNat b) * l.base =
      BitVec.ofNat 32 (poly l.base.toNat b) * BitVec.ofNat 32 l.base.toNat by rw [← word_eq_ofNat]]
    rw [ofNat_toNat_mul, ofNat_toNat_add]
  simp only [Lane.pushed, Lane.window, hhash, hpow]
  simp

/-- The empty window is the cleared lane (rule R67). -/
theorem Lane.window_nil (l : Lane) : l.window [] = l.cleared := by
  simp [Lane.window, Lane.cleared, poly32]

/-- What a roll leaves in a lane that holds `c :: a`, as an integer modulo `2^32` (rules R69, R120). -/
theorem Lane.rolled_hash_of_holds (l : Lane) (c : Byte) (a : List Byte) (cin cout : Byte) (h : l.holds (c :: a)) :
    (((l.rolled cin cout).hash.toNat : Nat) : Int) =
      ((poly l.base.toNat (a ++ [cin]) : Int) +
        ((c.toNat : Int) - cout.toNat) * l.base.toNat ^ (a.length + 1)) % 2 ^ 32 := by
  obtain ⟨hh, hp⟩ := h
  have hk : (l.rolled cin cout).hash = BitVec.ofInt 32 (((poly l.base.toNat (c :: a) : Int) -
      cout.toNat * l.base.toNat ^ a.length) * l.base.toNat + cin.toNat) := by
    simp only [Lane.rolled_hash, hh, hp, poly32, zext32_eq, List.length_cons, Nat.add_sub_cancel]
    rw [BitVec.ofInt_add, BitVec.ofInt_mul, show ∀ x y : Int, BitVec.ofInt 32 (x - y) =
      BitVec.ofInt 32 x - BitVec.ofInt 32 y from fun x y => by
        rw [sub_eq_add_neg, BitVec.ofInt_add, BitVec.ofInt_neg, BitVec.sub_eq_add_neg], BitVec.ofInt_mul]
    have hpw : ((l.base.toNat : Int) ^ a.length) = ((l.base.toNat ^ a.length : Nat) : Int) := by push_cast; rfl
    rw [hpw]
    simp only [BitVec.ofInt_natCast, BitVec.ofNat_toNat, BitVec.setWidth_eq]
  rw [hk, poly_roll, BitVec.toNat_ofInt, Int.toNat_of_nonneg (Int.emod_nonneg _ (by norm_num))]
  norm_num

end Sys2Proof.Machine
end

