-- ==== Sys2Proof/Laws/PerInstr.lean ====
section
/-! SUPPORT. What is said of every instruction as syntax, one lemma per constructor: its encoding is a word of its own
row of the opcode table (rules R46, R51). -/

namespace Sys2Proof.Laws.EncodesItsRow

/-- The encoding matches the row that carries the instruction's mnemonic. -/
def Statement (i : Instr) : Prop :=
  ∃ r ∈ opRows, r.mnemonic = i.asm.mnemonic ∧ r.covers (encode i) = true

/-- A row covers an assembled word when it does so field by field. -/
theorem covers_mk (r : OpRow) (o a : Byte) (b : Word) :
    r.covers (CmdWord.mk o a b) = true ↔ o &&& CmdWord.op r.mask = CmdWord.op r.pattern ∧
      a &&& CmdWord.a r.mask = CmdWord.a r.pattern ∧ 0 = CmdWord.rsv r.pattern ∧
      b &&& CmdWord.b r.mask = CmdWord.b r.pattern := by
  simp [OpRow.covers, CmdWord.and_eq_iff]

/-- Masking with zeros where the row fixes nothing. -/
theorem and_of_mask {n : Nat} (x m p : BitVec n) (hm : m = 0) (hp : p = 0) : x &&& m = p := by
  subst hm hp
  exact BitVec.and_zero

theorem bvinit (n : Word) : Statement (.bvinit n) :=
  ⟨⟨"BVINIT", 0x0100000000000000, 0xFFFFFFFF00000000⟩, by decide, rfl,
    (covers_mk _ _ _ _).2 ⟨rfl, rfl, rfl, and_of_mask _ _ _ rfl rfl⟩⟩

theorem bvrestore (len : Word) : Statement (.bvrestore len) :=
  ⟨⟨"BVRESTORE", 0x0200000000000000, 0xFFFFFFFF00000000⟩, by decide, rfl,
    (covers_mk _ _ _ _).2 ⟨rfl, rfl, rfl, and_of_mask _ _ _ rfl rfl⟩⟩

theorem bvorb (addr : Word) (byte : Byte) : Statement (.bvorb addr byte) :=
  ⟨⟨"BVORB", 0x0300000000000000, 0xFF00FFFF00000000⟩, by decide, rfl,
    (covers_mk _ _ _ _).2 ⟨rfl, and_of_mask _ _ _ rfl rfl, rfl, and_of_mask _ _ _ rfl rfl⟩⟩

theorem bvrdb (addr : Word) : Statement (.bvrdb addr) :=
  ⟨⟨"BVRDB", 0x0400000000000000, 0xFFFFFFFF00000000⟩, by decide, rfl,
    (covers_mk _ _ _ _).2 ⟨rfl, rfl, rfl, and_of_mask _ _ _ rfl rfl⟩⟩

theorem bvset (pos : Word) : Statement (.bvset pos) :=
  ⟨⟨"BVSET", 0x1000000000000000, 0xFFFFFFFF00000000⟩, by decide, rfl,
    (covers_mk _ _ _ _).2 ⟨rfl, rfl, rfl, and_of_mask _ _ _ rfl rfl⟩⟩

theorem bvtst (pos : Word) : Statement (.bvtst pos) :=
  ⟨⟨"BVTST", 0x1100000000000000, 0xFFFFFFFF00000000⟩, by decide, rfl,
    (covers_mk _ _ _ _).2 ⟨rfl, rfl, rfl, and_of_mask _ _ _ rfl rfl⟩⟩

theorem bvsetm (v : Word) : Statement (.bvsetm v) :=
  ⟨⟨"BVSETM", 0x1200000000000000, 0xFFFFFFFF00000000⟩, by decide, rfl,
    (covers_mk _ _ _ _).2 ⟨rfl, rfl, rfl, and_of_mask _ _ _ rfl rfl⟩⟩

theorem bvtstm (v : Word) : Statement (.bvtstm v) :=
  ⟨⟨"BVTSTM", 0x1300000000000000, 0xFFFFFFFF00000000⟩, by decide, rfl,
    (covers_mk _ _ _ _).2 ⟨rfl, rfl, rfl, and_of_mask _ _ _ rfl rfl⟩⟩

theorem hclr : Statement .hclr :=
  ⟨⟨"HCLR", 0x2000000000000000, 0xFFFFFFFFFFFFFFFF⟩, by decide, rfl, by decide⟩

/-- A byte has nothing in the bits the `HPUSH` row fixes. -/
theorem byte_masked (c : Byte) : c.setWidth 32 &&& 0xFFFFFF00#32 = 0 := by
  refine BitVec.eq_of_getLsbD_eq fun i hi => ?_
  rcases Nat.lt_or_ge i 8 with h | h
  · simp [show (0xFFFFFF00#32).getLsbD i = false by
      have : i = 0 ∨ i = 1 ∨ i = 2 ∨ i = 3 ∨ i = 4 ∨ i = 5 ∨ i = 6 ∨ i = 7 := by omega
      rcases this with rfl | rfl | rfl | rfl | rfl | rfl | rfl | rfl <;> rfl]
  · simp [BitVec.getLsbD_of_ge c i h]

theorem hpush (cin : Byte) : Statement (.hpush cin) :=
  ⟨⟨"HPUSH", 0x2100000000000000, 0xFFFFFFFFFFFFFF00⟩, by decide, rfl,
    (covers_mk _ _ _ _).2 ⟨rfl, rfl, rfl, byte_masked cin⟩⟩

/-- Two bytes have nothing in the bits the `HROLL` row fixes. -/
theorem pair_masked (d c : Byte) : (d ++ c).setWidth 32 &&& 0xFFFF0000#32 = 0 := by
  refine BitVec.eq_of_toNat_eq ?_
  have h : ((d ++ c).setWidth 32).toNat < 2 ^ 16 := by
    rw [BitVec.toNat_setWidth]
    exact Nat.lt_of_le_of_lt (Nat.mod_le _ _) (d ++ c).isLt
  rw [BitVec.toNat_and, show (0xFFFF0000#32).toNat = (2 ^ 16 - 1) <<< 16 from rfl]
  refine Nat.eq_of_testBit_eq fun i => ?_
  rw [Nat.testBit_and, Nat.testBit_shiftLeft]
  rcases Nat.lt_or_ge i 16 with hi | hi
  · simp [show ¬ 16 ≤ i by omega]
  · rw [Nat.testBit_lt_two_pow (Nat.lt_of_lt_of_le h (Nat.pow_le_pow_right (by omega) hi))]
    simp

theorem hroll (cin cout : Byte) : Statement (.hroll cin cout) :=
  ⟨⟨"HROLL", 0x2200000000000000, 0xFFFFFFFFFFFF0000⟩, by decide, rfl,
    (covers_mk _ _ _ _).2 ⟨rfl, rfl, rfl, pair_masked cout cin⟩⟩

theorem hset : Statement .hset :=
  ⟨⟨"HSET", 0x3000000000000000, 0xFFFFFFFFFFFFFFFF⟩, by decide, rfl, by decide⟩

theorem htst : Statement .htst :=
  ⟨⟨"HTST", 0x3100000000000000, 0xFFFFFFFFFFFFFFFF⟩, by decide, rfl, by decide⟩

theorem hloc (k : Byte) : Statement (.hloc k) :=
  ⟨⟨"HLOC", 0x3200000000000000, 0xFF00FFFFFFFFFFFF⟩, by decide, rfl,
    (covers_mk _ _ _ _).2 ⟨rfl, and_of_mask _ _ _ rfl rfl, rfl, rfl⟩⟩

theorem csrr (csr : Byte) : Statement (.csrr csr) :=
  ⟨⟨"CSRR", 0x4000000000000000, 0xFF00FFFFFFFFFFFF⟩, by decide, rfl,
    (covers_mk _ _ _ _).2 ⟨rfl, and_of_mask _ _ _ rfl rfl, rfl, rfl⟩⟩

theorem csrw (csr : Byte) (value : Word) : Statement (.csrw csr value) :=
  ⟨⟨"CSRW", 0x4100000000000000, 0xFF00FFFF00000000⟩, by decide, rfl,
    (covers_mk _ _ _ _).2 ⟨rfl, and_of_mask _ _ _ rfl rfl, rfl, and_of_mask _ _ _ rfl rfl⟩⟩

end Sys2Proof.Laws.EncodesItsRow
end

