-- ==== Sys2Proof/Tests/Slice0.lean ====
section
/-! SUPPORT. Small tests, each with its expected value from spec/95_test_vectors.md or a rule's example (named in the
docstring), and for each statement with hypotheses a concrete state and operands that meet them all. -/

namespace Sys2Proof.Tests

open Sys2Proof Sys2Proof.Machine

/-! ### Decoding (rules R46, R51: words written from the opcode map) -/

/-- The bit-vector words of section 2 of the vectors, and BVORB's worked encoding. -/
theorem test_decode_bit_vector_words :
    decode 0x010000000007A120 = some (.bvinit 500000) ∧ decode 0x0200000000000003 = some (.bvrestore 3) ∧
    decode 0x0381000000000002 = some (.bvorb 2 0x81) ∧ decode 0x04000000000053B8 = some (.bvrdb 21432) ∧
    decode 0x100000000000000D = some (.bvset 13) ∧ decode 0x110000000000000D = some (.bvtst 13) ∧
    decode 0x1200000000198126 = some (.bvsetm 1671462) ∧ decode 0x130000000000002D = some (.bvtstm 45) := by decide

/-- The engine, coupling and system words of sections 2.3 to 2.5 of the vectors. -/
theorem test_decode_engine_words :
    decode 0x2000000000000000 = some .hclr ∧ decode 0x2100000000000068 = some (.hpush 0x68) ∧
    decode 0x220000000000776F = some (.hroll 0x6F 0x77) ∧ decode 0x3000000000000000 = some .hset ∧
    decode 0x3100000000000000 = some .htst ∧ decode 0x3202000000000000 = some (.hloc 2) ∧
    decode 0x4006000000000000 = some (.csrr 6) ∧ decode 0x4111000000000011 = some (.csrw 0x11 17) := by decide

/-- The illegal words of section 2.6 of the vectors. -/
def illegalWords : List CmdWord :=
  [0x0000000000000000, 0xFFFFFFFFFFFFFFFF, 0x0500000000000000, 0x1400000000000000, 0x2300000000000000,
   0x3300000000000000, 0x4200000000000000, 0x1000000100000000, 0x1001000000000000, 0x2001000000000000] ++
  [0x2000000000000001, 0x2100000000000100, 0x2200000000010000, 0x3200000000000001, 0x4000000000000001,
   0x40FF000100000000]

/-- The ill-formed words of each kind are refused by the word check (rule R48). -/
theorem test_wellFormed_refuses_illegal_words : (illegalWords.all fun w => !wordWellFormed w) = true := by decide

theorem test_decode_refuses_illegal_words : (illegalWords.all fun w => decode w == none) = true := by decide

/-- The host's numbering of a word is the word's own (rule R32). -/
theorem test_decodeTableWord : decodeTableWord 64 0x4111000000000011 = some (.csrw 0x11 17) := by decide

/-- `HPUSH 'h'` and `CSRW HBASE1, 17` as the assembler writes them (rule R51). -/
theorem test_assemble :
    assemble ⟨"HPUSH", [.chr 'h']⟩ = some (.hpush 0x68) ∧
    assemble ⟨"CSRW", [.name (.hbase 1), .num 17]⟩ = some (.csrw 0x11 17) ∧
    assemble ⟨"HPUSH", [.num 256]⟩ = none := by decide

/-- A quoted character stands for a byte operand only, and only an ASCII one; a CSR's name for a CSR operand only
(rule R51; log entry 13 for these lines being no instruction). -/
theorem test_assemble_operand_kinds :
    assemble ⟨"BVSET", [.name .err]⟩ = none ∧ assemble ⟨"BVINIT", [.chr 'h']⟩ = none ∧
    assemble ⟨"HPUSH", [.chr 'é']⟩ = none ∧ assemble ⟨"HPUSH", [.name .err]⟩ = none ∧
    assemble ⟨"CSRR", [.chr 'h']⟩ = none ∧ assemble ⟨"CSRR", [.name .err]⟩ = some (.csrr 6) ∧
    assemble ⟨"HROLL", [.chr 'o', .chr 'w']⟩ = some (.hroll 0x6F 0x77) := by decide

/-- `HSETP k, p`, `HRD k` and `EXISTS "h"` (rule R52). -/
theorem test_pseudo :
    Pseudo.expand (.hsetp 1 17) = [.csrw 0x11 17] ∧ Pseudo.expand (.hsetp 15 17) = [.csrw 0x1F 17] ∧ Pseudo.expand (.hrd 2) = [.csrr 0x32] ∧
    Pseudo.expand (.existsOf [0x68]) = [.hclr, .hpush 0x68, .htst] := by decide

/-! ### One command each -/

/-- The reset state with a vector of `bits` bits. -/
def vec (bits bytes : Word) (buf : Memory) : State :=
  { State.reset with bitCount := bits, byteLen := bytes, buf := buf }

/-- The reset bases with these hashes and powers. -/
def lanesOf (h p : Word × Word × Word) : List Lane :=
  [⟨11, h.1, p.1⟩, ⟨17, h.2.1, p.2.1⟩, ⟨23, h.2.2, p.2.2⟩]

/-- A state with a window in the engine. -/
def eng (s : State) (h p : Word × Word × Word) (cnt : Word) : State :=
  { s with lanes := lanesOf h p, cnt := cnt }

/-- What a test looks at: the responses and one more component. -/
def shown {α : Type} (f : State → α) (i : Instr) (s : State) : Option (List RspWord × α) :=
  (stateAfter (exec i s)).map fun t => (t.rsps, f t)

/-- The vector `F9` of 4 bits discarded by `BVINIT 4`; `BVINIT 9` (section 2.1). -/
theorem test_bvinit :
    shown State.buf (.bvinit 4) (vec 4 1 [(0, 0xF9)]) = some ([1], []) ∧
    shown State.byteLen (.bvinit 9) State.reset = some ([2], 2) := by decide

/-- The largest vector, and one bit more (section 2.1). -/
theorem test_bvinit_capacity :
    shown State.err (.bvinit 524288) State.reset = some ([65536], 0) ∧
    shown State.err (.bvinit 524289) State.reset = some ([0x0300000000000000], 0x08) := by decide

/-- `BVRESTORE 3` (section 2.1). -/
theorem test_bvrestore :
    shown State.bitCount (.bvrestore 3) State.reset = some ([24], 24) ∧
    shown State.err (.bvrestore 65537) State.reset = some ([0x0300000000000000], 0x08) := by decide

/-- `BVORB 0, 0xF0` on `09`, and an address outside (section 2.2). -/
theorem test_bvorb :
    shown State.buf (.bvorb 0 0xF0) (vec 4 1 [(0, 0x09)]) = some ([0], [(0, 0xF9)]) ∧
    shown State.err (.bvorb 1 0x01) (vec 4 1 [(0, 0x09)]) = some ([0x0200000000000000], 0x04) := by decide

/-- `BVRDB` on `81 20` (rule R58). -/
theorem test_bvrdb :
    shown State.err (.bvrdb 0) (vec 16 2 [(0, 0x81), (1, 0x20)]) = some ([0x81], 0) ∧
    shown State.err (.bvrdb 2) (vec 16 2 [(0, 0x81), (1, 0x20)]) = some ([0x0200000000000000], 0x04) := by decide

/-- `BVSET 13` (V1), and the padding position 4 of a vector of 4 bits (section 2.2). -/
theorem test_bvset :
    shown State.buf (.bvset 13) (vec 24 3 []) = some ([0], [(1, 0x20)]) ∧
    shown State.buf (.bvset 4) (vec 4 1 [(0, 0x08)]) = some ([0x0200000000000000], [(0, 0x08)]) := by decide

/-- The set position, and one with the same offset in the byte before (V1). -/
theorem test_bvtst :
    shown State.err (.bvtst 13) (vec 24 3 [(1, 0x20)]) = some ([1], 0) ∧
    shown State.err (.bvtst 5) (vec 24 3 [(1, 0x20)]) = some ([0], 0) := by decide

/-- `BVSETM 1671462` on 500000 bits (rule R61), and on an empty bit space (section 2.2). -/
theorem test_bvsetm :
    shown State.buf (.bvsetm 1671462) (vec 500000 62500 []) = some ([171462], [(21432, 0x40)]) ∧
    shown State.err (.bvsetm 5) State.reset = some ([0x0400000000000000], 0x10) := by decide

/-- `BVTSTM 2171462` and `BVTSTM 1671463` (rule R62). -/
theorem test_bvtstm :
    shown State.err (.bvtstm 2171462) (vec 500000 62500 [(21432, 0x40)]) = some ([1], 0) ∧
    shown State.err (.bvtstm 1671463) (vec 500000 62500 [(21432, 0x40)]) = some ([0], 0) := by decide

/-- The window "bcd" cleared (section 2.3, step 5). -/
theorem test_hclr :
    shown (fun t => (t.lanes, t.cnt)) .hclr (eng State.reset (13047, 30105, 54219) (121, 289, 529) 3) =
      some ([0], lanesOf (0, 0, 0) (1, 1, 1), 0) := by decide

/-- `HPUSH 'a'` on an empty window and `HPUSH 'c'` on "ab" (section 2.3, steps 1 and 3). -/
theorem test_hpush :
    shown (fun t => (t.lanes, t.cnt)) (.hpush 97) State.reset =
      some ([0], lanesOf (97, 97, 97) (1, 1, 1), 1) ∧
    shown (fun t => (t.lanes, t.cnt)) (.hpush 99) (eng State.reset (1165, 1747, 2329) (11, 17, 23) 2) =
      some ([0], lanesOf (12914, 29798, 53666) (121, 289, 529), 3) := by decide

/-- The eighth `HPUSH 0xFF` wraps in every lane (section 2.3). -/
theorem test_hpush_wraps :
    shown (fun t => t.lanes.map Lane.hash) (.hpush 0xFF)
        (eng State.reset (496922835, 2244805289, 810316551) (1771561, 24137569, 148035889) 7) =
      some ([0], [1171184144, 3801951800, 1457411744]) := by decide

/-- `HROLL 'd','a'` on "abc" (rule R69); on an empty window (section 2.3, step 6). -/
theorem test_hroll :
    shown (fun t => (t.lanes, t.cnt)) (.hroll 100 97) (eng State.reset (12914, 29798, 53666) (121, 289, 529) 3) =
      some ([0], lanesOf (13047, 30105, 54219) (121, 289, 529), 3) ∧
    shown State.err (.hroll 97 98) State.reset = some ([0x0500000000000000], 0x20) := by decide

/-- `HROLL 0x00, 0xFF` through the wrap (section 2.3). -/
theorem test_hroll_wraps :
    shown (fun t => t.lanes.map Lane.hash) (.hroll 0x00 0xFF)
        (eng State.reset (1171184144, 3801951800, 1457411744) (19487171, 410338673, 3404825447) 8) =
      some ([0], [1171183889, 3801951545, 1457411489]) := by decide

/-- "hello" in the engine on the default vector (rule R76). -/
def hello (buf : Memory) : State :=
  eng (vec 500000 62500 buf) (1671462, 9215556, 30392058) (14641, 83521, 279841) 5

/-- `HSET` with "hello" (rule R76), and with one active lane (section 2.4, step 5). -/
theorem test_hset :
    shown State.buf .hset (hello []) = some ([0], [(21432, 0x40), (26944, 0x10), (49007, 0x04)]) ∧
    shown State.buf .hset { eng (vec 64 8 []) (1165, 1747, 2329) (11, 17, 23) 2 with nlanes := 1 } =
      some ([0], [(1, 0x20)]) := by decide

/-- `HTST` with "hello" on its own vector and "world" on that vector (rule R77). -/
theorem test_htst :
    shown State.err .htst (hello [(21432, 0x40), (26944, 0x10), (49007, 0x04)]) = some ([1], 0) ∧
    shown State.err .htst (eng (hello [(21432, 0x40), (26944, 0x10), (49007, 0x04)])
      (1905102, 10519224, 34714506) (14641, 83521, 279841) 5) = some ([0], 0) := by decide

/-- `HLOC 2` (rule R78) and `HLOC 3` with no bits (section 2.4: the lane is checked first). -/
theorem test_hloc :
    shown State.err (.hloc 2) (hello []) = some ([392058], 0) ∧
    shown State.err (.hloc 3) State.reset = some ([0x0200000000000000], 0x04) := by decide

/-- `CSRR HBASE2` and `CSRR 0x13` (section 2.5). -/
theorem test_csrr :
    shown State.err (.csrr 0x12) State.reset = some ([23], 0) ∧
    shown State.err (.csrr 0x13) State.reset = some ([0x0600000000000000], 0x40) := by decide

/-- `CSRW HBASE0, 31` clears the window of every lane (section 2.5, step 4). -/
theorem test_csrw_base :
    shown (fun t => (t.lanes, t.cnt)) (.csrw 0x10 31) (eng State.reset (1165, 1747, 2329) (11, 17, 23) 2) =
      some ([0], [⟨31, 0, 1⟩, ⟨17, 0, 1⟩, ⟨23, 0, 1⟩], 0) := by decide

/-- `CSRW NLANES, 4`, `CSRW BITCOUNT, 8` (section 2.5, steps 3 and 7). -/
theorem test_csrw_refused :
    shown State.err (.csrw 0x04 4) State.reset = some ([0x0700000000000000], 0x80) ∧
    shown State.err (.csrw 0x02 8) State.reset = some ([0x0600000000000000], 0x40) := by decide

/-- The all-zero word in a step: nothing but `ERR` and the response (P5, step 0). -/
theorem test_illegal_word_steps :
    stateAfter (step (State.reset.withFetchWord 64 0)) =
      some { State.reset with err := 0x02, rsps := [0x0100000000000000] } := by decide

/-- A reset event after "hello" (section 2.7). -/
theorem test_reset_event :
    stateAfter (step ((hello [(0, 1)]).withEvent .reset)) = some State.reset := by decide

/-- A window longer than the data (V11): no command, the state unchanged. -/
theorem test_substringExists_long_window :
    substringExists [0x61, 0x62, 0x63] 4 State.reset = some (false, State.reset) := by decide

/-- The low byte of each code unit (V9): "Ł" is the byte `41`. -/
theorem test_toCharCodeArray : toCharCodeArray [0x0141, 0x00E9] = [0x41, 0xE9] := by decide

/-! ### Witnesses for the statements' hypotheses -/

/-- A state with everything in use: 20 bits with position 17 set, the window "ab", `ERR_RANGE` recorded, a response
waiting. -/
def sample : State where
  buf := [(2, 0x02)]
  bitCount := 20
  byteLen := 3
  nlanes := 2
  cnt := 2
  err := 0x04
  lanes := lanesOf (1165, 1747, 2329) (11, 17, 23)
  capBytes := 65536
  inbox := []
  rsps := [0x0000000000000001]

/-- The sample with another bit count of three bytes, with events planned, and with other responses waiting. -/
def sampleOf (bits : Word) (es : List HostEvent) (rs : List RspWord) : State :=
  { sample with bitCount := bits, inbox := es, rsps := rs }

/-- The sample with events planned. -/
def sampleWith (es : List HostEvent) : State := sampleOf 20 es [0x0000000000000001]

theorem sample_err_bits : ∀ j : Fin 32, sample.err.getLsbD j = true → 1 ≤ j.val ∧ j.val ≤ 7 := by decide

theorem sample_numbers :
    (1 ≤ sample.capBytes.toNat ∧ sample.capBytes.toNat ≤ 2 ^ 28 ∧ 1 ≤ sample.lanes.length ∧
      sample.lanes.length ≤ 16) ∧
    sample.byteLen.toNat ≤ sample.capBytes.toNat ∧ 1 ≤ sample.nlanes.toNat ∧
    sample.nlanes.toNat ≤ sample.lanes.length ∧ sample.cnt.toNat = min 2 (2 ^ 32 - 1) ∧
    Memory.wf sample.buf = true ∧ Memory.below sample.byteLen.toNat sample.buf = true := by decide

theorem sample_powers :
    ∀ l ∈ sample.lanes, l.pow = BitVec.ofNat 32 (l.base.toNat ^ (2 - 1)) ∧ (2 = 0 → l.hash = 0) := by decide

theorem sampleOf_inv (bits : Word) (es : List HostEvent) (rs : List RspWord)
    (hb : (3 : Word).toNat = (bits.toNat + 7) / 8) (hr : ∀ r ∈ rs, RspLegal r) : Inv (sampleOf bits es rs) :=
  have ⟨⟨h1, h2, h3, h4⟩, h5, h6, h7, h8, h9, h10⟩ := sample_numbers
  { params := ⟨h1, h2, h3, h4⟩
    sized := hb
    fits := h5
    nlanesLow := h6
    nlanesHigh := h7
    errReserved := fun j h => by
      rcases Nat.lt_or_ge j 32 with hj | hj
      · exact sample_err_bits ⟨j, hj⟩ h
      · rw [BitVec.getLsbD_of_ge _ _ hj] at h
        cases h
    window := ⟨2, h8, sample_powers⟩
    memWf := h9
    memBelow := h10
    rspsLegal := hr }

theorem sampleWith_inv (es : List HostEvent) : Inv (sampleWith es) :=
  sampleOf_inv 20 es _ (by decide) fun r h => by
    obtain rfl : r = 0x0000000000000001 := List.mem_singleton.1 h
    exact .inl (by decide)

theorem witness_inv : Inv sample := sampleWith_inv []

theorem witness_sized : Sized sample ∧ sample.lanes.length ≤ 16 ∧ sample.capBytes.toNat ≤ 2 ^ 28 := by
  refine ⟨?_, ?_, ?_⟩
  · show (20 : Word).toNat ≤ 8 * (3 : Word).toNat
    decide
  · decide
  · decide

/-- EncodedInstructionDecodesBack, at the greatest operands. -/
theorem witness_EncodedInstructionDecodesBack : (Instr.hroll 0xFF 0xFF).wellFormed = true := rfl

/-- DecodedWordEncodesBack. -/
theorem witness_DecodedWordEncodesBack : decode 0x220000000000FFFF = some (.hroll 0xFF 0xFF) := by decide

/-- WordsOfTheOpcodeTableDecode: a row and a word it covers, with every free bit 1. -/
theorem witness_WordsOfTheOpcodeTableDecode :
    (⟨"CSRW", 0x4100000000000000, 0xFF00FFFF00000000⟩ : OpRow) ∈ opRows ∧
    (⟨"CSRW", 0x4100000000000000, 0xFF00FFFF00000000⟩ : OpRow).covers 0x41FF0000FFFFFFFF = true := by decide

/-- IllegalWordsAnswerErrIllegal: an illegal word of each of rule R48's ways, at the edge of each must-be-zero
field. -/
theorem witness_IllegalWordsAnswerErrIllegal :
    IllegalWord 0x0500000000000000 ∧ IllegalWord 0x1000000100000000 ∧ IllegalWord 0x1001000000000000 ∧
    IllegalWord 0x3200000000000001 ∧ IllegalWord 0x2100000000000100 ∧ IllegalWord 0x2200000000010000 :=
  ⟨.inl (by decide), .inr (.inl (by decide)), .inr (.inr (.inl (by decide))), .inr (.inr (.inr (.inl (by decide)))),
    .inr (.inr (.inr (.inr (.inl (by decide))))), .inr (.inr (.inr (.inr (.inr (by decide)))))⟩

/-- IllegalWordsAnswerErrIllegal: the words just inside those edges are legal, and a state offers one. -/
theorem witness_legal_words :
    ¬ IllegalWord 0x220000000000FFFF ∧ ¬ IllegalWord 0x21000000000000FF ∧
    (sampleWith [.command 0x220000000000FFFF]).inbox = [.command 0x220000000000FFFF] := by
  refine ⟨?_, ?_, rfl⟩
  · rintro (h | h | h | h | h | h) <;> revert h <;> decide
  · rintro (h | h | h | h | h | h) <;> revert h <;> decide

/-- StepRunsTheDecodedCommand. -/
theorem witness_StepRunsTheDecodedCommand :
    (sampleWith [.command 0x100000000000000D]).inbox = [.command 0x100000000000000D] ∧
    decode 0x100000000000000D = some (.bvset 13) ∧ (sampleWith [.take]).inbox = [.take] ∧
    (sampleWith []).inbox = [] := by decide

/-- EveryCommandGetsOneResponseInOrder: one state for each clause. -/
theorem witness_EveryCommandGetsOneResponseInOrder :
    Inv (sampleWith [.command 0]) ∧ (sampleWith [.take]).rsps = [0x0000000000000001] ∧
    Inv (sampleWith [.take]) ∧ Inv (sampleOf 20 [.take] []) ∧ Inv (sampleWith [.reset]) :=
  ⟨sampleWith_inv _, rfl, sampleWith_inv _, sampleOf_inv 20 _ _ (by decide) (by simp), sampleWith_inv _⟩

/-- ResetEventGivesTheResetState. -/
theorem witness_ResetEventGivesTheResetState : (sampleWith [.reset, .take]).inbox = .reset :: [.take] := rfl

/-- InvKeptByEveryStep, StepNeverStops and ParametersNeverChange, with a command that writes. -/
theorem witness_InvKeptByEveryStep :
    ∃ t, Inv (sampleWith [.command 0x1000000000000013]) ∧
      step (sampleWith [.command 0x1000000000000013]) = .next t := ⟨_, sampleWith_inv _, rfl⟩

/-- ErrorsFollowTheCheckTable: each of the seven errors but `ERR_ILLEGAL`, at the first value that errs. -/
theorem witness_ErrorsFollowTheCheckTable :
    sample.lanes.length ≤ 16 ∧
    errorOf sample (.bvinit 524289) = some 3 ∧ errorOf sample (.bvrestore 65537) = some 3 ∧
    errorOf sample (.bvorb 3 0) = some 2 ∧ errorOf sample (.bvrdb 3) = some 2 ∧
    errorOf sample (.bvset 20) = some 2 ∧ errorOf sample (.bvtst 20) = some 2 ∧
    errorOf State.reset (.bvsetm 0) = some 4 ∧ errorOf State.reset (.bvtstm 0) = some 4 ∧
    errorOf State.reset (.hroll 0 0) = some 5 ∧ errorOf State.reset .hset = some 4 ∧
    errorOf State.reset .htst = some 4 ∧ errorOf State.reset (.hloc 3) = some 2 ∧
    errorOf State.reset (.hloc 2) = some 4 ∧ errorOf sample (.csrr 8) = some 6 ∧
    errorOf sample (.csrw 0x13 0) = some 6 ∧ errorOf sample (.csrw 4 0) = some 7 ∧
    errorOf sample (.csrw 4 4) = some 7 := by decide

/-- The sixteen commands at the last operand that does not err. -/
def fineCommands : List Instr :=
  [.bvinit 524288, .bvrestore 65536, .bvorb 2 0xFF, .bvrdb 2, .bvset 19, .bvtst 19, .bvsetm 0xFFFFFFFF,
   .bvtstm 0xFFFFFFFF] ++
  [.hclr, .hpush 0xFF, .hroll 0xFF 0xFF, .hset, .htst, .hloc 2, .csrr 0x32, .csrw 0x12 0xFFFFFFFF, .csrw 4 3]

/-- CommandsWithoutErrorAnswerOk: every command. -/
theorem witness_CommandsWithoutErrorAnswerOk :
    Sized sample ∧ sample.lanes.length ≤ 16 ∧ (fineCommands.all fun i => errorOf sample i == none) = true :=
  ⟨witness_sized.1, by decide, by decide⟩

/-- ErrorBitsAreSticky: bit 2 set, and a command that sets bit 1. -/
theorem witness_ErrorBitsAreSticky :
    (∀ rest, (sampleWith [.command 0]).inbox ≠ .reset :: rest) ∧ (sampleWith [.command 0]).err.getLsbD 2 = true ∧
    ∃ t, step (sampleWith [.command 0]) = .next t := ⟨fun _ h => (by cases h), by decide, _, rfl⟩

/-- BvinitBuildsAZeroedVector, BvrestoreBuildsAZeroedVector, BvrestoreLeavesTheStateOfBvinit: the capacity and one
more. -/
theorem witness_construction :
    ((524288#32).toNat + 7) / 8 ≤ sample.capBytes.toNat ∧ sample.capBytes.toNat < ((524289#32).toNat + 7) / 8 ∧
    (65536#32).toNat ≤ sample.capBytes.toNat ∧ sample.capBytes.toNat < (65537#32).toNat ∧
    sample.capBytes.toNat ≤ 2 ^ 28 := by decide

/-- BvorbOrsOneByte and BvrdbReadsOneByte: the last address and the first outside. -/
theorem witness_byte_commands :
    (2#32).toNat < sample.byteLen.toNat ∧ sample.byteLen.toNat ≤ (3#32).toNat := by decide

/-- BvsetSetsExactlyOneBit and BvtstAnswersTheBit: the last position and the first outside. -/
theorem witness_bit_commands :
    Sized sample ∧ (19#32).toNat < sample.bitCount.toNat ∧ sample.bitCount.toNat ≤ (20#32).toNat :=
  ⟨witness_sized.1, by decide, by decide⟩

/-- BvsetmSetsTheReducedBit, BvtstmAnswersTheReducedBit, HsetSetsTheActivePositions, HtstAnswersTheConjunction: a bit
space, the smallest one, and none. -/
theorem witness_modular_commands :
    Sized sample ∧ sample.bitCount.toNat ≠ 0 ∧ Sized (vec 1 1 []) ∧ (vec 1 1 []).bitCount.toNat ≠ 0 ∧
    Sized State.reset ∧ State.reset.bitCount.toNat = 0 := by
  unfold Sized
  decide

/-- BitsNeverFallBetweenConstructions: a set bit, and a command that writes the vector. -/
theorem witness_BitsNeverFallBetweenConstructions :
    (∀ e rest, (sampleWith [.command 0x3000000000000000]).inbox = e :: rest → e.keepsVector = true) ∧
    bitAt (sampleWith [.command 0x3000000000000000]) 17 = true ∧
    ∃ t, step (sampleWith [.command 0x3000000000000000]) = .next t :=
  ⟨fun e rest h => by
    obtain ⟨rfl, -⟩ := List.cons.inj h
    decide, by decide, _, rfl⟩

/-- SetBitIsSeenByEveryLaterTest: the last position, and an `HCLR` and a `take` between. -/
theorem witness_SetBitIsSeenByEveryLaterTest :
    Sized sample ∧ (19#32).toNat < sample.bitCount.toNat ∧
    (∀ e ∈ ([.command 0x2000000000000000, .take] : List HostEvent), e.keepsVector = true) ∧
    ∃ t u, exec (.bvset 19) sample = .next t ∧
      hostRun [.command 0x2000000000000000, .take] t = .next u :=
  ⟨witness_sized.1, by decide, by decide, _, _, rfl, rfl⟩

/-- PaddingBitsAreNeverSetByBitCommands: the first padding position. -/
theorem witness_PaddingBitsAreNeverSetByBitCommands :
    sample.bitCount.toNat ≤ 20 ∧ (∃ t, exec .hset sample = .next t) ∧ (∃ t, exec (.bvset 19) sample = .next t) ∧
    ∃ t, exec (.bvsetm 20) sample = .next t := ⟨by decide, ⟨_, rfl⟩, ⟨_, rfl⟩, _, rfl⟩

/-- The sample with a padding bit set. -/
def padded : State := { sample with buf := [(2, 0x12)] }

/-- A byte of the two differs in a padding bit only. -/
theorem padded_bits (p : Nat) (h : p < 20) : bitAt padded p = bitAt sample p :=
  (by decide : ∀ q : Fin 20, bitAt padded q = bitAt sample q) ⟨p, h⟩

/-- PaddingBitsAreNeverReadByBitTests. -/
theorem witness_PaddingBitsAreNeverReadByBitTests :
    padded = { sample with buf := padded.buf } ∧
    (∀ p, p < sample.bitCount.toNat → bitAt padded p = bitAt sample p) ∧ padded.buf ≠ sample.buf ∧
    ∃ t, exec .htst sample = .next t := ⟨rfl, fun p h => padded_bits p h, by decide, _, rfl⟩

/-- FromScratchLaw: between the pushes a `BVSET`, an `HTST`, an illegal word, a `take`, `CSRW NLANES` and a `CSRW` to
the lane that does not exist; the last base's number is not allowed there. -/
def between : List HostEvent :=
  sending [.hpush 0x61, .bvset 19, .htst, .csrw 4 3] ++ [.command 0, .take] ++ sending [.csrw 0x13 5, .hpush 0x62]

theorem witness_FromScratchLaw :
    (∀ e ∈ between, e.continuesWindow sample.lanes.length = true) ∧ pushedBytes between = [0x61, 0x62] ∧
    Inv sample ∧ HostEvent.continuesWindow sample.lanes.length (.command (encode (.csrw 0x12 5))) = false ∧
    ∃ t, hostRun (sending [.hclr] ++ between) sample = .next t :=
  ⟨by decide, by decide, witness_inv, by decide, _, rfl⟩

/-- HrollSlidesTheWindow: a window of one byte, and none. -/
theorem witness_HrollSlidesTheWindow :
    (eng State.reset (97, 97, 97) (1, 1, 1) 1).cnt.toNat ≠ 0 ∧ State.reset.cnt.toNat = 0 := by decide

/-- RollingLaw and WrongOutgoingByteShiftsTheHash: "ab" in every lane. -/
theorem witness_RollingLaw :
    sample.cnt.toNat ≠ 0 ∧ ∀ l ∈ sample.lanes, l.holds [0x61, 0x62] := by
  unfold Lane.holds
  decide

/-- ScanEqualsFromScratch: the last window of four bytes. -/
theorem witness_ScanEqualsFromScratch :
    1 ≤ 3 ∧ 1 + 3 ≤ ([0x78, 0x61, 0x62, 0x63] : List Byte).length := by decide

/-- ShortWindowsAreExact: a lane of base 23, and the greatest window of 6 bytes, which is the bound of rule R73. -/
theorem witness_ShortWindowsAreExact :
    sample.lanes[2]? = some ⟨23, 2329, 23⟩ ∧
    poly 23 (List.replicate 6 0xFF) = 1715870520 ∧ poly 23 (List.replicate 6 0xFF) < 2 ^ 32 ∧
    (23#32).toNat ≤ 23 ∧ (List.replicate 6 (0xFF : Byte)).length ≤ 6 := by decide

/-- LanesAreIndependent: two states with one lane in common. -/
theorem witness_LanesAreIndependent :
    (eng State.reset (1165, 5, 6) (11, 3, 4) 2).cnt = sample.cnt ∧
    (eng State.reset (1165, 5, 6) (11, 3, 4) 2).lanes[0]? = sample.lanes[0]? ∧
    (∃ t, exec (.hroll 0x63 0x61) sample = .next t) ∧
    ∃ t, exec (.hroll 0x63 0x61) (eng State.reset (1165, 5, 6) (11, 3, 4) 2) = .next t :=
  ⟨by decide, by decide, ⟨_, rfl⟩, _, rfl⟩

/-- HlocAnswersTheReducedHash: the last lane, one more, and the last lane on an empty bit space. -/
theorem witness_HlocAnswersTheReducedHash :
    sample.lanes[(2#8).toNat]? = some ⟨23, 2329, 23⟩ ∧ sample.bitCount.toNat ≠ 0 ∧
    sample.lanes.length ≤ (3#8).toNat ∧ (2#8).toNat < State.reset.lanes.length ∧
    State.reset.bitCount.toNat = 0 := by decide

/-- NoFalseNegatives: between `HSET` and `HTST`, the window is emptied and pushed again. -/
theorem witness_NoFalseNegatives :
    Sized sample ∧ sample.bitCount.toNat ≠ 0 ∧
    (∀ e ∈ sending [.hclr, .hpush 0x61, .hpush 0x62], e.keepsVector = true) ∧
    ∃ t u, exec .hset sample = .next t ∧ hostRun (sending [.hclr, .hpush 0x61, .hpush 0x62]) t = .next u ∧
      u.nlanes = sample.nlanes ∧ u.lanes = sample.lanes :=
  ⟨witness_sized.1, by decide, by decide, _, _, rfl, rfl, by decide, by decide⟩

/-- CsrrReadsTheMap: the last number of each group, and the numbers just outside them. -/
theorem witness_CsrrReadsTheMap :
    sample.lanes.length ≤ 16 ∧ ((0x07#8).toNat, 3) ∈ csrMap sample ∧ ((0x12#8).toNat, 23) ∈ csrMap sample ∧
    ((0x22#8).toNat, 23) ∈ csrMap sample ∧ ((0x32#8).toNat, 2329) ∈ csrMap sample ∧
    (∀ n ∈ [0x08, 0x13, 0x23, 0x33, 0x40, 0xFF], (csrMap sample).all (fun c => c.1 != n) = true) := by decide

/-- CsrwNlanesSetsTheListLength: the least and the greatest legal value, and those beyond. -/
theorem witness_CsrwNlanesSetsTheListLength :
    1 ≤ (1#32).toNat ∧ (3#32).toNat ≤ sample.lanes.length ∧ (0#32).toNat < 1 ∧
    sample.lanes.length < (4#32).toNat := by decide

/-- CsrwHbaseInstallsTheBase: the last lane. -/
theorem witness_CsrwHbaseInstallsTheBase : 2 < sample.lanes.length ∧ 2 < 16 := by decide

/-- CsrwRefusesEveryOtherNumber: a read-only number, and the lane that does not exist. -/
theorem witness_CsrwRefusesEveryOtherNumber :
    (∀ n ∈ [0x05#8, 0x13#8], n.toNat ≠ 4 ∧ ∀ k, k < sample.lanes.length → k < 16 → n.toNat ≠ 0x10 + k) := by
  decide

/-- CommandsWriteOnlyTheirColumn: a command answered OK with an address it does not store to, one that errs, and a
`CSRW` with a base it does not name. -/
theorem witness_CommandsWriteOnlyTheirColumn :
    (∃ t, exec .hset sample = .next t ∧ t.err = sample.err) ∧ keepsVectorInstr .hset = true ∧
    Field.cnt ∉ fieldsWritten .hset ∧ 2 ∉ storedBytes sample .hset ∧ 0 ∈ storedBytes sample .hset ∧
    (∃ t, exec (.bvset 20) sample = .next t ∧ AnsweredError sample t) ∧
    (∃ t, exec (.csrw 0x12 5) sample = .next t) ∧ (0x12#8).toNat ≠ 0x10 + 1 :=
  ⟨⟨_, rfl, rfl⟩, rfl, by decide, by decide, by decide, ⟨_, rfl, 0x0200000000000000, rfl, by decide⟩, ⟨_, rfl⟩,
    by decide⟩

/-- ReadingCommandsChangeNothing: an OK answer, and an error. -/
theorem witness_ReadingCommandsChangeNothing :
    (∃ t, exec .htst sample = .next t ∧ t.err = sample.err) ∧
    ∃ t, exec (.bvtst 20) sample = .next t ∧ AnsweredError sample t :=
  ⟨⟨_, rfl, rfl⟩, _, rfl, 0x0200000000000000, rfl, by decide⟩

/-- The host sequences' statements: a state with the invariant, a bit space, the longest list of bases, a buffer
that fits, a bit count that is a multiple of 8 and one that is not. -/
theorem witness_host_sequences :
    Inv sample ∧ sample.bitCount.toNat ≠ 0 ∧ ([0x02, 0x00] : List Byte).length ≤ sample.capBytes.toNat ∧
    1 ≤ ([31, 17, 23] : List Word).length ∧ ([31, 17, 23] : List Word).length ≤ sample.lanes.length ∧
    (24#32).toNat % 8 = 0 ∧ sample.bitCount.toNat % 8 ≠ 0 :=
  ⟨witness_inv, by decide, by decide, by decide, by decide, by decide, by decide⟩

/-- SerialisedVectorRoundTrips: the sample as a vector of 24 bits has the invariant too. -/
theorem witness_SerialisedVectorRoundTrips :
    Inv (sampleOf 24 [] []) ∧ (sampleOf 24 [] []).bitCount.toNat % 8 = 0 :=
  ⟨sampleOf_inv 24 _ _ (by decide) (by simp), by decide⟩

/-- SubstringExistsIsAnyWindow: a window longer than the data, and the whole data as one window. -/
theorem witness_SubstringExistsIsAnyWindow :
    Inv sample ∧ sample.bitCount.toNat ≠ 0 ∧ ([0x61, 0x62, 0x63] : List Byte).length < 4 ∧ 1 ≤ 3 ∧
    3 ≤ ([0x61, 0x62, 0x63] : List Byte).length := ⟨witness_inv, by decide, by decide, by decide, by decide⟩

end Sys2Proof.Tests
end

section
/-! The scope family: what an accepted event and a step can do, and that neither changes a parameter (rule R5). -/

namespace Sys2Proof.Machine

/-! ### What one event can do (rules R42, R43, R48) -/

/-- Everything an event can do, as a case analysis: the decoded command, `ERR_ILLEGAL`, a response taken, or the
reset. -/
theorem acceptEvent_cases {e : HostEvent} {s t : State} (h : acceptEvent e s = .next t) :
    (∃ w i, e = .command w ∧ decode w = some i ∧ exec i s = .next t) ∨
      (∃ w, e = .command w ∧ decode w = none ∧ t = s.raised .illegal) ∨
      (e = .take ∧ t = s.delivered) ∨ (e = .reset ∧ t = s.wasReset) := by
  cases e with
  | command w =>
    change acceptWord w s = .next t at h
    cases hw : decode w with
    | some i => exact .inl ⟨w, i, rfl, hw, acceptWord_some hw s ▸ h⟩
    | none =>
      rw [acceptWord_none hw] at h
      cases h
      exact .inr (.inl ⟨w, rfl, hw, rfl⟩)
  | take => cases h; exact .inr (.inr (.inl ⟨rfl, rfl⟩))
  | reset => cases h; exact .inr (.inr (.inr ⟨rfl, rfl⟩))

/-- Everything a step can do: idle with nothing planned, or the first planned event accepted with it popped. -/
theorem step_cases {s t : State} (h : step s = .next t) :
    (s.inbox = [] ∧ t = s) ∨ ∃ e rest, s.inbox = e :: rest ∧ acceptEvent e { s with inbox := rest } = .next t := by
  cases hi : s.inbox with
  | nil =>
    rw [step_nil hi] at h
    cases h
    exact .inl ⟨rfl, rfl⟩
  | cons e rest => exact .inr ⟨e, rest, rfl, step_cons hi ▸ h⟩

/-! ### The parameters (rule R5) -/

/-- `t` is a state of the machine `s` is a state of: `BV_CAP_BYTES` and `LANES_MAX` are those of `s`. -/
def SameParams (s t : State) : Prop := t.capBytes = s.capBytes ∧ t.lanes.length = s.lanes.length

/-- A command's effect changes lanes' contents only, never their number. -/
theorem okEffect_sameParams {i : Instr} {s u : State} (h : OkEffect s i u) : SameParams s u := by
  cases i with
  | bvinit n => obtain ⟨-, rfl⟩ := h; exact ⟨rfl, rfl⟩
  | bvrestore len => obtain ⟨-, rfl⟩ := h; exact ⟨rfl, rfl⟩
  | bvorb addr byte => obtain ⟨-, rfl⟩ := h; exact ⟨rfl, rfl⟩
  | bvset pos => obtain ⟨-, -, rfl⟩ := h; exact ⟨rfl, rfl⟩
  | bvsetm v => obtain ⟨-, -, rfl⟩ := h; exact ⟨rfl, rfl⟩
  | hset =>
    have hr : OrRun s u := (setBits_orRun _ _ _ h.2).2
    rw [hr.eq_buf]
    exact ⟨rfl, rfl⟩
  | hclr => obtain rfl : u = _ := h; exact ⟨rfl, by simp⟩
  | hpush cin => obtain rfl : u = _ := h; exact ⟨rfl, by simp⟩
  | hroll cin cout => obtain ⟨-, rfl⟩ := h; exact ⟨rfl, by simp⟩
  | csrw csr value =>
    obtain ⟨-, -, -, rfl⟩ | ⟨k, -, -, -, rfl⟩ := h
    · exact ⟨rfl, rfl⟩
    · exact ⟨rfl, by simp⟩
  | bvrdb _ | bvtst _ | bvtstm _ | htst | hloc _ | csrr _ => obtain rfl : u = s := h; exact ⟨rfl, rfl⟩

/-- An answer, OK or error, is no parameter. -/
theorem exec_sameParams {i : Instr} {s t : State} (h : exec i s = .next t) : SameParams s t := by
  obtain ⟨e, rfl⟩ | ⟨u, d, hu, rfl⟩ := exec_cases h
  · exact ⟨rfl, rfl⟩
  · obtain ⟨hcap, hlanes⟩ := okEffect_sameParams hu
    exact ⟨hcap, hlanes⟩

/-- The reset builds the lanes anew, as many as there were. -/
theorem acceptEvent_sameParams {e : HostEvent} {s t : State} (h : acceptEvent e s = .next t) : SameParams s t := by
  obtain ⟨w, i, -, -, hx⟩ | ⟨w, -, -, rfl⟩ | ⟨-, rfl⟩ | ⟨-, rfl⟩ := acceptEvent_cases h
  · exact exec_sameParams hx
  · exact ⟨rfl, rfl⟩
  · exact ⟨rfl, rfl⟩
  · exact ⟨rfl, by simp⟩

theorem step_sameParams {s t : State} (h : step s = .next t) : SameParams s t := by
  obtain ⟨-, rfl⟩ | ⟨e, rest, -, he⟩ := step_cases h
  · exact ⟨rfl, rfl⟩
  · obtain ⟨hcap, hlanes⟩ := acceptEvent_sameParams he
    exact ⟨hcap, hlanes⟩

end Sys2Proof.Machine

namespace Sys2Proof

open Sys2Proof.Machine

/-- Settles O16: by the case analysis of a step, each of whose commands and events keeps both parameters. -/
theorem parametersNeverChange : Obligations.ParametersNeverChange := by
  unfold Obligations.ParametersNeverChange
  exact fun _ _ => step_sameParams

end Sys2Proof
end

section
/-! The state family: the reset state (rule R26), the invariant of rule R27 kept by every step, the sticky `ERR`
(rule R107), and what a command leaves unchanged (rule R28). -/

namespace Sys2Proof.Machine

/-! ### The commands that only OR into the buffer (rule R28) -/

theorem orRun_of_okEffect {i : Instr} {s u : State} (h : OkEffect s i u) (hi : fieldsWritten i = [.buf]) :
    OrRun s u := by
  cases i with
  | bvorb addr byte => obtain ⟨ha, rfl⟩ := h; exact .more .done _ _ ha
  | bvset pos => obtain ⟨-, ha, rfl⟩ := h; exact .more .done _ _ ha
  | bvsetm v => obtain ⟨-, ha, rfl⟩ := h; exact .more .done _ _ ha
  | hset => exact (setBits_orRun _ _ _ h.2).2
  | csrw csr value => rw [fieldsWritten] at hi; split at hi <;> simp at hi
  | _ => simp [fieldsWritten] at hi

/-! ### The invariant under each operation (rules R17, R27) -/

section

variable {s t : State}

theorem ParamsLegal.of_sameParams (h : ParamsLegal s) (hp : SameParams s t) : ParamsLegal t := by
  obtain ⟨hcap, hlanes⟩ := hp
  exact ⟨hcap ▸ h.capLow, hcap ▸ h.capHigh, hlanes ▸ h.lanesLow, hlanes ▸ h.lanesHigh⟩

theorem ErrCode.number_bounds (e : ErrCode) : 1 ≤ e.number ∧ e.number ≤ 7 := by
  cases e <;> decide

theorem ErrCode.status_toNat (e : ErrCode) : e.status.toNat = e.number := by
  cases e <;> rfl

theorem errorRsp_legal (e : ErrCode) : RspLegal (rspWord e.status 0) := by
  obtain ⟨hl, hh⟩ := e.number_bounds
  exact .inr ⟨e.number, hl, hh, by simp [rspWord_toNat, e.status_toNat]⟩

theorem okRsp_legal (d : Word) : RspLegal (rspWord 0 d) :=
  .inl (by simpa [rspWord_toNat] using d.isLt)

/-- The bit an error sets is one of `ERR`'s seven. -/
theorem errAfter_reserved {e : ErrCode} {err : Word} (h : ∀ j, err.getLsbD j = true → 1 ≤ j ∧ j ≤ 7) (j : Nat)
    (hj : (errAfter e err).getLsbD j = true) : 1 ≤ j ∧ j ≤ 7 := by
  rw [errAfter, BitVec.getLsbD_or, Bool.or_eq_true] at hj
  rcases hj with hj | hj
  · exact h j hj
  · rw [errBit_getLsbD e j (BitVec.lt_of_getLsbD hj), beq_iff_eq] at hj
    exact hj ▸ e.number_bounds

namespace Inv

/-- What the host plans is no part of the invariant. -/
theorem withInbox (h : Inv s) (es : List HostEvent) : Inv { s with inbox := es } :=
  { h with params := h.params.of_sameParams ⟨rfl, rfl⟩ }

theorem withRsps (h : Inv s) {rs : List RspWord} (hr : ∀ r ∈ rs, RspLegal r) : Inv { s with rsps := rs } :=
  { h with params := h.params.of_sameParams ⟨rfl, rfl⟩, rspsLegal := hr }

theorem rspsLegal_append (h : Inv s) {r : RspWord} (hr : RspLegal r) : ∀ r' ∈ s.rsps ++ [r], RspLegal r' := by
  simpa [or_imp, forall_and] using ⟨h.rspsLegal, hr⟩

theorem offer (h : Inv s) (d : Word) : Inv (s.offer (rspWord 0 d)) :=
  h.withRsps (h.rspsLegal_append (okRsp_legal d))

theorem delivered (h : Inv s) : Inv s.delivered :=
  h.withRsps fun r hr => h.rspsLegal r (List.mem_of_mem_tail hr)

theorem raised (h : Inv s) (e : ErrCode) : Inv (s.raised e) :=
  { h with
    params := h.params.of_sameParams ⟨rfl, rfl⟩
    errReserved := errAfter_reserved h.errReserved
    rspsLegal := h.rspsLegal_append (errorRsp_legal e) }

theorem orRun (h : Inv s) (hr : OrRun s t) : Inv t := by
  rw [hr.eq_buf]
  exact
    { h with
      params := h.params.of_sameParams ⟨rfl, rfl⟩
      memWf := hr.wf_kept h.memWf
      memBelow := hr.below_kept h.memBelow }

theorem constructed (h : Inv s) {bits bytes : Word} (hs : bytes.toNat = ceil8 bits.toNat)
    (hf : bytes.toNat ≤ s.capBytes.toNat) : Inv (s.constructed bits bytes) :=
  { h with
    params := h.params.of_sameParams ⟨rfl, rfl⟩
    sized := hs
    fits := hf
    memWf := rfl
    memBelow := rfl }

theorem withNlanes (h : Inv s) {n : Word} (hl : 1 ≤ n.toNat) (hh : n.toNat ≤ s.lanes.length) :
    Inv { s with nlanes := n } :=
  { h with params := h.params.of_sameParams ⟨rfl, rfl⟩, nlanesLow := hl, nlanesHigh := hh }

/-- An update of the engine alone keeps the invariant where it keeps the number of lanes and the window relation. -/
theorem withEngine (h : Inv s) {lanes : List Lane} {cnt : Word} (hl : lanes.length = s.lanes.length)
    (hw : WindowInv { s with lanes := lanes, cnt := cnt }) : Inv { s with lanes := lanes, cnt := cnt } :=
  { h with
    params := h.params.of_sameParams ⟨rfl, hl⟩
    nlanesHigh := hl ▸ h.nlanesHigh
    window := hw }

end Inv

/-! ### The window relation (rule R27, items 4 and 5) -/

/-- Whatever the lanes were, clearing leaves the empty window. -/
theorem windowInv_cleared (s : State) : WindowInv s.windowCleared :=
  ⟨0, rfl, by simp⟩

/-- A push takes a window of `m` bytes to one of `m + 1`: the power grows by a factor where `m` was not 0. -/
theorem windowInv_pushed (h : WindowInv s) (cin : Byte) : WindowInv (s.windowPushed cin) := by
  obtain ⟨m, hm, hl⟩ := h
  refine ⟨m + 1, by rw [State.windowPushed_cnt, hm, sat32, BitVec.toNat_ofNat]; omega, ?_⟩
  rw [State.windowPushed_lanes, List.forall_mem_map]
  refine fun l hmem => ⟨?_, fun h => absurd h m.succ_ne_zero⟩
  obtain ⟨hp, -⟩ := hl l hmem
  cases m with
  | zero =>
    have hc : s.cnt = 0 := BitVec.eq_of_toNat_eq hm
    simpa [hc] using hp
  | succ m =>
    have hc : (s.cnt != 0) = true := bne_iff_ne.2 fun h0 => by have : s.cnt.toNat = 0 := h0 ▸ rfl; omega
    rw [Lane.pushed_pow, hc, if_pos rfl, hp]
    simp [pow_succ, BitVec.ofNat_mul]

/-- A roll keeps every power, and happens on no empty window. -/
theorem windowInv_rolled (h : WindowInv s) (hc : s.cnt ≠ 0) (cin cout : Byte) :
    WindowInv (s.windowRolled cin cout) := by
  obtain ⟨m, hm, hl⟩ := h
  have hm0 : m ≠ 0 := by rintro rfl; exact hc (BitVec.eq_of_toNat_eq hm)
  refine ⟨m, hm, ?_⟩
  rw [State.windowRolled_lanes, List.forall_mem_map]
  exact fun l hmem => ⟨(hl l hmem).1, fun h => absurd h hm0⟩

end

/-! ### The reset state (rule R26) -/

theorem resetBase_eq (k : Nat) :
    resetBase k = if k = 0 then 11 else if k = 1 then 17 else if k = 2 then 23 else 0 := by
  match k with
  | 0 | 1 | 2 => rfl
  | k + 3 => simp [resetBase, Config.defaultBases]

theorem resetWith_lanes_length (cap : Word) (n : Nat) : (State.resetWith cap n).lanes.length = n := by
  simp [State.resetWith]

/-- The reset lane count is min(3, LANES_MAX), which no 32-bit register truncates. -/
theorem resetWith_nlanes_toNat (cap : Word) (n : Nat) : (State.resetWith cap n).nlanes.toNat = min 3 n :=
  Nat.mod_eq_of_lt (by omega)

theorem resetLanes_getElem?_eq_some {n k : Nat} {l : Lane} :
    ((List.range n).map resetLane)[k]? = some l ↔ k < n ∧ l = resetLane k := by
  rw [List.getElem?_eq_some_iff]
  simp [eq_comm]

theorem inv_resetWith {cap : Word} {n : Nat} (h : ParamsLegal (State.resetWith cap n)) :
    Inv (State.resetWith cap n) := by
  have hn : 1 ≤ n := resetWith_lanes_length cap n ▸ h.lanesLow
  exact
    { params := h
      sized := by simp [State.resetWith]
      fits := Nat.zero_le _
      nlanesLow := by rw [resetWith_nlanes_toNat]; omega
      nlanesHigh := by rw [resetWith_nlanes_toNat, resetWith_lanes_length]; omega
      errReserved := by simp [State.resetWith]
      window := ⟨0, rfl, by simp [State.resetWith, resetLane]⟩
      memWf := rfl
      memBelow := rfl
      rspsLegal := by simp [State.resetWith] }

/-- A reset keeps the parameters, so it gives a reset state of legal ones. -/
theorem Inv.wasReset {s : State} (h : Inv s) : Inv s.wasReset :=
  (inv_resetWith (h.params.of_sameParams ⟨rfl, resetWith_lanes_length _ _⟩)).withInbox s.inbox

/-! ### The invariant under a step (rule R27) -/

/-- `BVINIT`'s byte count fits its register. -/
theorem ceil8_toNat (n : Word) : (BitVec.ofNat 32 (ceil8 n.toNat)).toNat = ceil8 n.toNat := by
  have := n.isLt
  exact Nat.mod_eq_of_lt (by unfold ceil8; omega)

/-- Within a legal capacity, `BVRESTORE`'s bit count fits its register. -/
theorem eight_mul_toNat {len : Word} (h : len.toNat ≤ 2 ^ 28) : (8 * len).toNat = 8 * len.toNat := by
  rw [BitVec.toNat_mul]
  exact Nat.mod_eq_of_lt (by simp; omega)

theorem Inv.of_okEffect {i : Instr} {s u : State} (h : Inv s) (hu : OkEffect s i u) : Inv u := by
  cases i with
  | bvinit n =>
    obtain ⟨hn, rfl⟩ := hu
    exact h.constructed (ceil8_toNat n) ((ceil8_toNat n).symm ▸ hn)
  | bvrestore len =>
    obtain ⟨hlen, rfl⟩ := hu
    refine h.constructed ?_ hlen
    rw [eight_mul_toNat (hlen.trans h.params.capHigh), ceil8]
    omega
  | bvorb _ _ | bvset _ | bvsetm _ | hset => exact h.orRun (orRun_of_okEffect hu rfl)
  | hclr => obtain rfl : u = _ := hu; exact h.withEngine (by simp) (windowInv_cleared s)
  | hpush cin => obtain rfl : u = _ := hu; exact h.withEngine (by simp) (windowInv_pushed h.window cin)
  | hroll cin cout =>
    obtain ⟨hc, rfl⟩ := hu
    exact h.withEngine (by simp) (windowInv_rolled h.window hc cin cout)
  | csrw csr value =>
    obtain ⟨-, hl, hh, rfl⟩ | ⟨k, -, -, -, rfl⟩ := hu
    · exact h.withNlanes hl hh
    · exact h.withEngine (by simp) (windowInv_cleared _)
  | bvrdb _ | bvtst _ | bvtstm _ | htst | hloc _ | csrr _ => obtain rfl : u = s := hu; exact h

theorem Inv.of_exec {i : Instr} {s t : State} (h : Inv s) (ht : exec i s = .next t) : Inv t := by
  obtain ⟨e, rfl⟩ | ⟨u, d, hu, rfl⟩ := exec_cases ht
  · exact h.raised e
  · exact (h.of_okEffect hu).offer d

theorem Inv.of_acceptEvent {e : HostEvent} {s t : State} (h : Inv s) (ht : acceptEvent e s = .next t) : Inv t := by
  obtain ⟨w, i, -, -, hx⟩ | ⟨w, -, -, rfl⟩ | ⟨-, rfl⟩ | ⟨-, rfl⟩ := acceptEvent_cases ht
  · exact h.of_exec hx
  · exact h.raised .illegal
  · exact h.delivered
  · exact h.wasReset

theorem Inv.of_step {s t : State} (h : Inv s) (ht : step s = .next t) : Inv t := by
  obtain ⟨-, rfl⟩ | ⟨e, rest, -, he⟩ := step_cases ht
  · exact h
  · exact (h.withInbox rest).of_acceptEvent he

/-! ### What a command leaves unchanged (rules R28, R103) -/

/-- No command's effect reaches `ERR`, the response queue or the host's plans: the answer does. -/
def SameAnswering (s u : State) : Prop := u.err = s.err ∧ u.rsps = s.rsps ∧ u.inbox = s.inbox

theorem OrRun.sameAnswering {s u : State} (h : OrRun s u) : SameAnswering s u := by
  rw [h.eq_buf]
  exact ⟨rfl, rfl, rfl⟩

theorem okEffect_sameAnswering {i : Instr} {s u : State} (h : OkEffect s i u) : SameAnswering s u := by
  cases i with
  | bvinit n => obtain ⟨-, rfl⟩ := h; exact ⟨rfl, rfl, rfl⟩
  | bvrestore len => obtain ⟨-, rfl⟩ := h; exact ⟨rfl, rfl, rfl⟩
  | bvorb _ _ | bvset _ | bvsetm _ | hset => exact (orRun_of_okEffect h rfl).sameAnswering
  | hroll cin cout => obtain ⟨-, rfl⟩ := h; exact ⟨rfl, rfl, rfl⟩
  | csrw csr value => obtain ⟨-, -, -, rfl⟩ | ⟨k, -, -, -, rfl⟩ := h <;> exact ⟨rfl, rfl, rfl⟩
  | hclr | hpush _ | bvrdb _ | bvtst _ | bvtstm _ | htst | hloc _ | csrr _ =>
    obtain rfl : u = _ := h; exact ⟨rfl, rfl, rfl⟩

/-- Rule R103: the sticky bit is set, every other bit stays. -/
theorem errAfter_kept (e : ErrCode) {err : Word} {j : Nat} (h : err.getLsbD j = true) :
    (errAfter e err).getLsbD j = true := by
  simp [errAfter, h]

theorem exec_err_kept {i : Instr} {s t : State} (ht : exec i s = .next t) {j : Nat} (h : s.err.getLsbD j = true) :
    t.err.getLsbD j = true := by
  obtain ⟨e, rfl⟩ | ⟨u, d, hu, rfl⟩ := exec_cases ht
  · exact errAfter_kept e h
  · obtain ⟨herr, -, -⟩ := okEffect_sameAnswering hu
    rwa [State.offer_err, herr]

/-- Of the events, only the reset clears a bit of `ERR`. -/
theorem acceptEvent_err_kept {e : HostEvent} {s t : State} (ht : acceptEvent e s = .next t) (he : e ≠ .reset)
    {j : Nat} (h : s.err.getLsbD j = true) : t.err.getLsbD j = true := by
  obtain ⟨w, i, -, -, hx⟩ | ⟨w, -, -, rfl⟩ | ⟨-, rfl⟩ | ⟨rfl, -⟩ := acceptEvent_cases ht
  · exact exec_err_kept hx h
  · exact errAfter_kept _ h
  · exact h
  · exact absurd rfl he

/-! #### Field by field -/

section

variable {s u : State} {f : Field}

theorem Field.same_refl (f : Field) (s : State) : f.Same s s := by
  cases f with
  | buf => exact fun _ => rfl
  | _ => rfl

theorem Field.same_raised (f : Field) (s : State) (e : ErrCode) : f.Same s (s.raised e) := by
  cases f with
  | buf => exact fun _ => rfl
  | _ => rfl

theorem Field.Same.offer (h : f.Same s u) (r : RspWord) : f.Same s (u.offer r) := by
  cases f <;> exact h

theorem Field.same_orRun (h : OrRun s u) (hf : f ≠ .buf) : f.Same s u := by
  rw [h.eq_buf]
  cases f with
  | buf => exact absurd rfl hf
  | _ => rfl

theorem Field.same_constructed {bits bytes : Word} (hf : f ∉ [Field.bitCount, .byteLen, .buf]) :
    f.Same s (s.constructed bits bytes) := by
  cases f with
  | bitCount | byteLen | buf => simp at hf
  | _ => rfl

theorem Field.same_nlanes {n : Word} (hf : f ≠ .nlanes) : f.Same s { s with nlanes := n } := by
  cases f with
  | nlanes => exact absurd rfl hf
  | buf => exact fun _ => rfl
  | _ => rfl

/-- An update of the lanes that keeps their bases, and of `CNT`. -/
theorem Field.same_windowUpdate {g : Lane → Lane} {c : Word} (hg : ∀ l, (g l).base = l.base)
    (hf : f ∉ [Field.hash, .hpow, .cnt]) : f.Same s { s with lanes := s.lanes.map g, cnt := c } := by
  cases f with
  | hash | hpow | cnt => simp at hf
  | hbase => simp [Field.Same, Function.comp_def, hg]
  | buf => exact fun _ => rfl
  | _ => rfl

theorem Field.same_windowRolled {cin cout : Byte} (hf : f ≠ .hash) : f.Same s (s.windowRolled cin cout) := by
  cases f with
  | hash => exact absurd rfl hf
  | hbase | hpow => simp [Field.Same, Function.comp_def]
  | buf => exact fun _ => rfl
  | _ => rfl

theorem Field.same_baseInstalled {k : Nat} {value : Word} (hf : f ∉ [Field.hbase, .hash, .hpow, .cnt]) :
    f.Same s (s.baseInstalled k value) := by
  cases f with
  | hbase | hash | hpow | cnt => simp at hf
  | buf => exact fun _ => rfl
  | _ => rfl

/-- Rule R28's writes column bounds every effect. -/
theorem okEffect_fieldSame {i : Instr} (h : OkEffect s i u) (hf : f ∉ fieldsWritten i) : f.Same s u := by
  cases i with
  | bvinit n => obtain ⟨-, rfl⟩ := h; exact Field.same_constructed hf
  | bvrestore len => obtain ⟨-, rfl⟩ := h; exact Field.same_constructed hf
  | bvorb _ _ | bvset _ | bvsetm _ | hset =>
    exact Field.same_orRun (orRun_of_okEffect h rfl) (List.ne_of_not_mem_cons hf)
  | hclr => obtain rfl : u = _ := h; exact Field.same_windowUpdate Lane.cleared_base hf
  | hpush cin => obtain rfl : u = _ := h; exact Field.same_windowUpdate (fun l => l.pushed_base _ cin) hf
  | hroll cin cout => obtain ⟨-, rfl⟩ := h; exact Field.same_windowRolled (List.ne_of_not_mem_cons hf)
  | csrw csr value =>
    obtain ⟨hn, -, -, rfl⟩ | ⟨k, hn, -, -, rfl⟩ := h
    · rw [fieldsWritten, if_pos hn] at hf
      exact Field.same_nlanes (List.ne_of_not_mem_cons hf)
    · rw [fieldsWritten, if_neg (by omega)] at hf
      exact Field.same_baseInstalled hf
  | bvrdb _ | bvtst _ | bvtstm _ | htst | hloc _ | csrr _ => obtain rfl : u = s := h; exact Field.same_refl f u

theorem byteAt_ored_of_notMem {a b : Nat} {v : Byte} (h : b ∉ [a]) : byteAt (s.ored a v) b = byteAt s b := by
  rw [byteAt_ored, if_neg (List.ne_of_not_mem_cons h)]

/-- A command that constructs no vector changes no byte but those it stores to: it writes nothing of the buffer, or
it ORs into those bytes. -/
theorem okEffect_byteAt {i : Instr} (h : OkEffect s i u) (hk : keepsVectorInstr i = true) {a : Nat}
    (ha : a ∉ storedBytes s i) : byteAt u a = byteAt s a := by
  by_cases hb : Field.buf ∈ fieldsWritten i
  · cases i with
    | bvinit _ | bvrestore _ => simp [keepsVectorInstr] at hk
    | bvorb addr byte => obtain ⟨-, rfl⟩ := h; exact byteAt_ored_of_notMem ha
    | bvset pos => obtain ⟨-, -, rfl⟩ := h; exact byteAt_ored_of_notMem ha
    | bvsetm v => obtain ⟨-, -, rfl⟩ := h; exact byteAt_ored_of_notMem ha
    | hset =>
      exact byteAt_setBits h.2 fun p hp hap => ha (List.mem_map.2 ⟨p, hp, hap.symm⟩)
    | csrw csr value => rw [fieldsWritten] at hb; split at hb <;> simp at hb
    | _ => simp [fieldsWritten] at hb
  · exact okEffect_fieldSame h hb a

/-- `CSRW` installs a base in the lane it names, in no other (rule R85). -/
theorem okEffect_csrw_base {csr : Byte} {value : Word} (h : OkEffect s (.csrw csr value) u) {j : Nat}
    (hj : csr.toNat ≠ 0x10 + j) : u.lanes[j]?.map Lane.base = s.lanes[j]?.map Lane.base := by
  obtain ⟨-, -, -, rfl⟩ | ⟨k, hk, -, -, rfl⟩ := h
  · rfl
  · have hkj : k ≠ j := by omega
    simp [hkj, Function.comp_def]

end

end Sys2Proof.Machine

namespace Sys2Proof

open Sys2Proof.Machine

/-- Settles O14: by the case analysis of a step, with one lemma for each operation a command or an event is made of. -/
theorem invKeptByEveryStep : Obligations.InvKeptByEveryStep := by
  unfold Obligations.InvKeptByEveryStep
  exact fun _ _ => Inv.of_step

/-- Settles O13: the reference parameters are legal, and any reset state of legal parameters has the invariant. -/
theorem invAtReset : Obligations.InvAtReset := by
  unfold Obligations.InvAtReset
  exact inv_resetWith ⟨by decide, by decide, by decide, by decide⟩

/-- Settles O12: field by field; the lanes are `resetLane k` in order. -/
theorem stateAfterReset : Obligations.StateAfterReset := by
  unfold Obligations.StateAfterReset
  refine ⟨fun cap n => ⟨rfl, rfl, fun _ => rfl, rfl, rfl, rfl, resetWith_lanes_length cap n, fun k hk => ?_⟩, _, rfl⟩
  exact resetLanes_getElem?_eq_some.2 ⟨hk, by rw [resetLane, resetBase_eq]⟩

/-- Settles O11: the step runs the event on the state with it popped, and the reset state keeps the host's plans. -/
theorem resetEventGivesTheResetState : Obligations.ResetEventGivesTheResetState := by
  unfold Obligations.ResetEventGivesTheResetState
  intro s rest hs
  refine ⟨_, step_cons hs, rfl, rfl, rfl, rfl, rfl, rfl, resetWith_lanes_length s.capBytes _, fun k l hl => ?_,
    rfl, rfl, rfl⟩
  obtain ⟨-, rfl⟩ := resetLanes_getElem?_eq_some.1 hl
  exact ⟨rfl, rfl, resetBase_eq k⟩

/-- Settles O19: no event but the reset clears a bit, and an idle step changes nothing. -/
theorem errorBitsAreSticky : Obligations.ErrorBitsAreSticky := by
  unfold Obligations.ErrorBitsAreSticky
  intro s t j hr ht h
  obtain ⟨-, rfl⟩ | ⟨e, rest, hi, he⟩ := step_cases ht
  · exact h
  · exact acceptEvent_err_kept he (by rintro rfl; exact hr rest hi) h

/-- Settles O50: an error answer changes `ERR` and the response alone, and an OK answer adds only its response to an
effect within the column. -/
theorem commandsWriteOnlyTheirColumn : Obligations.CommandsWriteOnlyTheirColumn := by
  unfold Obligations.CommandsWriteOnlyTheirColumn
  intro s t i ht
  obtain ⟨hcap, hlanes⟩ := exec_sameParams ht
  obtain ⟨e, rfl⟩ | ⟨u, d, hu, rfl⟩ := exec_cases ht
  · exact ⟨⟨_, rfl⟩, ⟨hcap, hlanes, rfl⟩, fun _ => rfl, fun h => absurd (answeredError_raised s e) h,
      fun f _ => f.same_raised s e, fun _ _ _ => rfl, fun _ _ _ _ _ => rfl⟩
  · obtain ⟨herr, hrsps, hinbox⟩ := okEffect_sameAnswering hu
    refine ⟨⟨rspWord 0 d, by rw [State.offer_rsps, hrsps]⟩, ⟨hcap, hlanes, hinbox⟩,
      fun h => absurd h (not_answeredError_offer d hrsps), fun _ => herr,
      fun f hf => (okEffect_fieldSame hu hf).offer _, fun hk _ ha => okEffect_byteAt hu hk ha, ?_⟩
    rintro csr value j rfl hj
    exact okEffect_csrw_base hu hj

end Sys2Proof
end

section
/-! The memory family: a vector's bits only rise between constructions, over any run of host events (rules R40, R63),
and the commands that only read write nothing (rule R36). -/

namespace Sys2Proof.Machine

/-! ### The same vector, its bits only risen (rule R63) -/

/-- `t` has the vector of `s`: of the same size, and every bit set in `s` is set. -/
def BitsKept (s t : State) : Prop :=
  t.bitCount = s.bitCount ∧ t.byteLen = s.byteLen ∧ ∀ p, bitAt s p = true → bitAt t p = true

namespace BitsKept

variable {s t u : State}

theorem refl (s : State) : BitsKept s s := ⟨rfl, rfl, fun _ h => h⟩

theorem trans (h : BitsKept s t) (h' : BitsKept t u) : BitsKept s u := by
  obtain ⟨hcount, hlen, hbit⟩ := h
  obtain ⟨hcount', hlen', hbit'⟩ := h'
  exact ⟨hcount'.trans hcount, hlen'.trans hlen, fun p hp => hbit' p (hbit p hp)⟩

theorem sized (h : BitsKept s t) (hs : Sized s) : Sized t := by
  obtain ⟨hcount, hlen, -⟩ := h
  unfold Sized
  rwa [hcount, hlen]

end BitsKept

theorem okEffect_bitsKept {i : Instr} {s u : State} (h : OkEffect s i u) (hk : keepsVectorInstr i = true) :
    BitsKept s u := by
  obtain ⟨v, hrun, hbuf, hcount, hlen⟩ := okEffect_orRun h hk
  have hbits : ∀ p, bitAt u p = bitAt v p := fun p => by simp [bitAt, byteAt, hbuf]
  exact ⟨hcount, hlen, fun p hp => (hbits p).trans (hrun.bit_kept p hp)⟩

/-- An answer, OK or error, is no part of the vector. -/
theorem exec_bitsKept {i : Instr} {s t : State} (ht : exec i s = .next t) (hk : keepsVectorInstr i = true) :
    BitsKept s t := by
  obtain ⟨e, rfl⟩ | ⟨u, d, hu, rfl⟩ := exec_cases ht
  · exact BitsKept.refl s
  · have hkept : BitsKept s u := okEffect_bitsKept hu hk
    exact hkept

theorem keepsVector_command {w : CmdWord} {i : Instr} (hw : decode w = some i) :
    (HostEvent.command w).keepsVector = keepsVectorInstr i := by
  simp [HostEvent.keepsVector, hw]

theorem acceptEvent_bitsKept {e : HostEvent} {s t : State} (ht : acceptEvent e s = .next t)
    (he : e.keepsVector = true) : BitsKept s t := by
  obtain ⟨w, i, rfl, hw, hx⟩ | ⟨w, -, -, rfl⟩ | ⟨-, rfl⟩ | ⟨rfl, -⟩ := acceptEvent_cases ht
  · exact exec_bitsKept hx (keepsVector_command hw ▸ he)
  · exact BitsKept.refl s
  · exact BitsKept.refl s
  · exact absurd he Bool.false_ne_true

/-! ### Runs of host events (rule R43) -/

/-- A run that ends has accepted its first event and gone on from there. -/
theorem hostRun_cons_eq_next {e : HostEvent} {es : List HostEvent} {s u : State} :
    hostRun (e :: es) s = .next u ↔ ∃ t, acceptEvent e s = .next t ∧ hostRun es t = .next u := by
  rw [hostRun, step_withEvent]
  cases acceptEvent e s <;> simp

/-- What each event of a run keeps, the whole run keeps. -/
theorem hostRun_invariant {P : State → Prop} {es : List HostEvent} {s u : State}
    (hP : ∀ e ∈ es, ∀ v w, P v → acceptEvent e v = .next w → P w) (hs : P s) (hu : hostRun es s = .next u) : P u := by
  induction es generalizing s with
  | nil => cases hu; exact hs
  | cons e es ih =>
    obtain ⟨t, ht, hu⟩ := hostRun_cons_eq_next.1 hu
    exact ih (fun e' he' => hP e' (List.mem_cons_of_mem e he')) (hP e List.mem_cons_self s t hs ht) hu

theorem hostRun_bitsKept {es : List HostEvent} {s u : State} (hes : ∀ e ∈ es, e.keepsVector = true)
    (hu : hostRun es s = .next u) : BitsKept s u :=
  hostRun_invariant (P := BitsKept s) (fun e he _ _ hv hw => hv.trans (acceptEvent_bitsKept hw (hes e he)))
    (BitsKept.refl s) hu

/-! ### `BVSET` and `BVTST` of a position of the bit space (rules R59, R60) -/

section

variable {s : State} {pos : Word}

theorem exec_bvset_of_lt (hs : Sized s) (hp : pos.toNat < s.bitCount.toNat) :
    exec (.bvset pos) s = respond 0 (s.ored (pos.toNat / 8) (bitMask pos.toNat)) := by
  change execBvset pos s = _
  rw [execBvset, if_neg (Nat.not_le.2 hp), setBit_of_lt (byteIndex_lt_of_sized hs hp), withByte_some]

theorem exec_bvtst_of_lt (hs : Sized s) (hp : pos.toNat < s.bitCount.toNat) :
    exec (.bvtst pos) s = respond (boolData (bitAt s pos.toNat)) s := by
  change execBvtst pos s = _
  rw [execBvtst, if_neg (Nat.not_le.2 hp), isBitSet_eq (byteIndex_lt_of_sized hs hp), withByte_some]

theorem bitAt_of_exec_bvset {t : State} (hs : Sized s) (hp : pos.toNat < s.bitCount.toNat)
    (ht : exec (.bvset pos) s = .next t) : bitAt t pos.toNat = true := by
  rw [exec_bvset_of_lt hs hp, respond_eq] at ht
  cases ht
  change bitAt (s.ored (pos.toNat / 8) (bitMask pos.toNat)) pos.toNat = true
  simp [bitAt_setBit]

theorem exec_bvtst_answersOne (hs : Sized s) (hp : pos.toNat < s.bitCount.toNat) (hb : bitAt s pos.toNat = true) :
    ∃ v, exec (.bvtst pos) s = .next v ∧ AnswersOk s v 1 := by
  rw [exec_bvtst_of_lt hs hp, hb]
  exact ⟨_, respond_eq 1 s, answersOk_offer s s 1 rfl rfl⟩

end

/-! ### The commands that only read (rules R28, R36) -/

/-- A command whose writes column is empty leaves the very same state, buffer included. -/
theorem okEffect_eq_of_fieldsWritten_nil {i : Instr} {s u : State} (h : OkEffect s i u) (hi : fieldsWritten i = []) :
    u = s := by
  cases i with
  | bvrdb _ | bvtst _ | bvtstm _ | htst | hloc _ | csrr _ => exact h
  | csrw csr value => rw [fieldsWritten] at hi; split at hi <;> simp at hi
  | _ => simp [fieldsWritten] at hi

theorem exec_sameButAnswer {i : Instr} {s t : State} (ht : exec i s = .next t) (hi : fieldsWritten i = []) :
    SameButAnswer s t := by
  obtain ⟨e, rfl⟩ | ⟨u, d, hu, rfl⟩ := exec_cases ht
  · rfl
  · obtain rfl : u = s := okEffect_eq_of_fieldsWritten_nil hu hi
    rfl

end Sys2Proof.Machine

namespace Sys2Proof

open Sys2Proof.Machine

/-- Settles O30: `BVSET` sets the bit, and it and every event after it keep the vector's size and every set bit, so
`BVTST` finds the position in the bit space and its bit set. -/
theorem setBitIsSeenByEveryLaterTest : Obligations.SetBitIsSeenByEveryLaterTest := by
  unfold Obligations.SetBitIsSeenByEveryLaterTest
  intro s t u pos es hs hp ht hes hu
  have hrun : BitsKept t u := hostRun_bitsKept hes hu
  have hkept : BitsKept s u := (exec_bitsKept ht rfl).trans hrun
  have hsized : Sized u := hkept.sized hs
  obtain ⟨hcount, -, -⟩ := hkept
  obtain ⟨-, -, hbit⟩ := hrun
  exact exec_bvtst_answersOne hsized (hcount ▸ hp) (hbit _ (bitAt_of_exec_bvset hs hp ht))

/-- Settles O51: the writes column of each is empty; that `ERR` changes with an error alone holds of every command. -/
theorem readingCommandsChangeNothing : Obligations.ReadingCommandsChangeNothing := by
  unfold Obligations.ReadingCommandsChangeNothing
  intro s t i hi ht
  have hw : fieldsWritten i = [] := by
    obtain ⟨a, rfl⟩ | ⟨p, rfl⟩ | ⟨v, rfl⟩ | rfl | ⟨k, rfl⟩ | ⟨c, rfl⟩ := hi <;> rfl
  obtain ⟨-, -, -, herr, -⟩ := commandsWriteOnlyTheirColumn s t i ht
  exact ⟨exec_sameButAnswer ht hw, herr⟩

end Sys2Proof
end

section
/-! The encoding family, the words: encoder and decoder are inverse to each other (rules R44, R46, R47), the illegal
words of rule R48 are the words that decode to nothing, the opcode table is the decoder's, and the assembler's lines
(rule R51). -/

namespace Sys2Proof

open Sys2Proof.Machine

/-! ### Encoder and decoder (rules R44, R46, R47) -/

/-- What a row makes of a word's fields is encoded by those fields: no operand bit is dropped, and no bit that is not
an operand is free. -/
theorem encode_of_decodesTo {o a : Byte} {b : Word} {i : Instr} (h : DecodesTo a b o i) :
    encode i = CmdWord.mk o a b := by
  cases h with
  | hpush ha hb => rw [encode, ha, zext_lowByte b hb]
  | hroll ha hb => rw [encode, ha, zext_twoBytes b hb]
  | hclr ha hb | hset ha hb | htst ha hb => rw [encode, ha, hb]
  | hloc hb | csrr hb => rw [encode, hb]
  | bvorb | csrw => rfl
  | _ ha => rw [encode, ha]

/-- Every instruction is what its row makes of some fields. -/
theorem exists_decodesTo (i : Instr) : ∃ o a b, DecodesTo a b o i := by
  cases i with
  | bvinit n => exact ⟨_, 0, n, .bvinit rfl⟩
  | bvrestore len => exact ⟨_, 0, len, .bvrestore rfl⟩
  | bvorb addr byte => exact ⟨_, byte, addr, .bvorb⟩
  | bvrdb addr => exact ⟨_, 0, addr, .bvrdb rfl⟩
  | bvset pos => exact ⟨_, 0, pos, .bvset rfl⟩
  | bvtst pos => exact ⟨_, 0, pos, .bvtst rfl⟩
  | bvsetm v => exact ⟨_, 0, v, .bvsetm rfl⟩
  | bvtstm v => exact ⟨_, 0, v, .bvtstm rfl⟩
  | hclr => exact ⟨_, 0, 0, .hclr rfl rfl⟩
  | hpush cin => exact ⟨0x21, 0, cin.setWidth 32, by simpa using DecodesTo.hpush rfl (bitsAbove8_zext cin)⟩
  | hroll cin cout =>
    exact ⟨0x22, 0, (cout ++ cin).setWidth 32, by simpa using DecodesTo.hroll rfl (bitsAbove16_pair cout cin)⟩
  | hset => exact ⟨_, 0, 0, .hset rfl rfl⟩
  | htst => exact ⟨_, 0, 0, .htst rfl rfl⟩
  | hloc k => exact ⟨_, k, 0, .hloc rfl⟩
  | csrr csr => exact ⟨_, csr, 0, .csrr rfl⟩
  | csrw csr value => exact ⟨_, csr, value, .csrw⟩

@[simp] theorem decode_encode (i : Instr) : decode (encode i) = some i := by
  obtain ⟨o, a, b, h⟩ := exists_decodesTo i
  rw [encode_of_decodesTo h, decode_mk, decodeFields_eq_some.2 h]

theorem encode_of_decode {w : CmdWord} {i : Instr} (h : decode w = some i) : encode i = w := by
  obtain ⟨hrsv, hf⟩ := decode_eq_some.1 h
  rw [encode_of_decodesTo (decodeFields_eq_some.1 hf), CmdWord.mk_fields w hrsv]

/-- Settles O1: an instruction is what its row makes of some fields, and those are the fields of its encoding. -/
theorem encodedInstructionDecodesBack : Obligations.EncodedInstructionDecodesBack := by
  unfold Obligations.EncodedInstructionDecodesBack
  exact fun i _ => decode_encode i

/-- Settles O2: a legal word is assembled from its fields, and so is the encoding of the command they name. -/
theorem decodedWordEncodesBack : Obligations.DecodedWordEncodesBack := by
  unfold Obligations.DecodedWordEncodesBack
  exact fun _ _ => encode_of_decode

/-! ### The legal words (rule R48) -/

/-- The opcodes of the table. -/
def definedOps : List Byte :=
  [0x01, 0x02, 0x03, 0x04, 0x10, 0x11, 0x12, 0x13, 0x20, 0x21, 0x22, 0x30, 0x31, 0x32, 0x40, 0x41]

/-- The opcodes whose `A` must be 0. -/
def opsWithoutA : List Byte := [0x01, 0x02, 0x04, 0x10, 0x11, 0x12, 0x13, 0x20, 0x21, 0x22, 0x30, 0x31]

/-- The opcodes whose `B` must be 0. -/
def opsWithoutB : List Byte := [0x20, 0x30, 0x31, 0x32, 0x40]

/-- `OP`, `A` and `B` of a word that is illegal in none of rule R48's ways. -/
structure LegalFields (o a : Byte) (b : Word) : Prop where
  defined : o ∈ definedOps
  a_zero : o ∈ opsWithoutA → a = 0
  b_zero : o ∈ opsWithoutB → b = 0
  hpush : o = 0x21 → bitsAbove8 b = 0
  hroll : o = 0x22 → bitsAbove16 b = 0

/-- The bits from `n` on are all 0 exactly when the quotient by `2 ^ n` is. -/
theorem extractLsb'_eq_zero_iff_div (b : Word) {n : Nat} (hn : n ≤ 32) :
    b.extractLsb' n (32 - n) = 0#(32 - n) ↔ b.toNat / 2 ^ n = 0 := by
  have hlt : b.toNat / 2 ^ n < 2 ^ (32 - n) := Nat.div_lt_of_lt_mul (by
    rw [← pow_add, Nat.add_sub_cancel' hn]
    exact b.isLt)
  rw [← BitVec.toNat_inj, BitVec.extractLsb'_toNat, Nat.shiftRight_eq_div_pow, Nat.mod_eq_of_lt hlt,
    BitVec.toNat_ofNat, Nat.zero_mod]

theorem bitsAbove8_eq_zero_iff (b : Word) : bitsAbove8 b = 0 ↔ b.toNat / 2 ^ 8 = 0 :=
  extractLsb'_eq_zero_iff_div b (n := 8) (by omega)

theorem bitsAbove16_eq_zero_iff (b : Word) : bitsAbove16 b = 0 ↔ b.toNat / 2 ^ 16 = 0 :=
  extractLsb'_eq_zero_iff_div b (n := 16) (by omega)

theorem not_illegalWord_iff_fields (w : CmdWord) :
    ¬ IllegalWord w ↔ CmdWord.rsv w = 0 ∧ LegalFields (CmdWord.op w) (CmdWord.a w) (CmdWord.b w) := by
  simp only [IllegalWord, not_or, not_and, not_not, ← bitsAbove8_eq_zero_iff, ← bitsAbove16_eq_zero_iff]
  constructor
  · rintro ⟨hop, hrsv, ha, hb, hpush, hroll⟩
    exact ⟨hrsv, hop, ha, hb, hpush, hroll⟩
  · rintro ⟨hrsv, hop, ha, hb, hpush, hroll⟩
    exact ⟨hop, hrsv, ha, hb, hpush, hroll⟩

/-- Rule R48's checks are those the rows make. -/
theorem legalFields_iff {o a : Byte} {b : Word} : LegalFields o a b ↔ ∃ i, DecodesTo a b o i := by
  constructor
  · rintro ⟨hop, ha, hb, hpush, hroll⟩
    simp only [definedOps, List.mem_cons, List.not_mem_nil, or_false] at hop
    rcases hop with rfl | rfl | rfl | rfl | rfl | rfl | rfl | rfl | rfl | rfl | rfl | rfl | rfl | rfl | rfl | rfl
    · exact ⟨_, .bvinit (ha (by decide))⟩
    · exact ⟨_, .bvrestore (ha (by decide))⟩
    · exact ⟨_, .bvorb⟩
    · exact ⟨_, .bvrdb (ha (by decide))⟩
    · exact ⟨_, .bvset (ha (by decide))⟩
    · exact ⟨_, .bvtst (ha (by decide))⟩
    · exact ⟨_, .bvsetm (ha (by decide))⟩
    · exact ⟨_, .bvtstm (ha (by decide))⟩
    · exact ⟨_, .hclr (ha (by decide)) (hb (by decide))⟩
    · exact ⟨_, .hpush (ha (by decide)) (hpush rfl)⟩
    · exact ⟨_, .hroll (ha (by decide)) (hroll rfl)⟩
    · exact ⟨_, .hset (ha (by decide)) (hb (by decide))⟩
    · exact ⟨_, .htst (ha (by decide)) (hb (by decide))⟩
    · exact ⟨_, .hloc (hb (by decide))⟩
    · exact ⟨_, .csrr (hb (by decide))⟩
    · exact ⟨_, .csrw⟩
  · rintro ⟨i, h⟩
    exact
      { defined := by cases h <;> decide
        a_zero := by cases h <;> simp [opsWithoutA, *]
        b_zero := by cases h <;> simp [opsWithoutB, *]
        hpush := by cases h <;> simp [*]
        hroll := by cases h <;> simp [*] }

theorem not_illegalWord_iff (w : CmdWord) : ¬ IllegalWord w ↔ ∃ i, decode w = some i := by
  simp only [not_illegalWord_iff_fields, legalFields_iff, decode_eq_some, decodeFields_eq_some, exists_and_left]

theorem decode_of_illegalWord {w : CmdWord} (h : IllegalWord w) : decode w = none := by
  rw [Option.eq_none_iff_forall_ne_some]
  exact fun i hi => (not_illegalWord_iff w).2 ⟨i, hi⟩ h

/-- Settles O6: the words illegal by rule R48 are those the decoder refuses, and the step raises `ERR_ILLEGAL` for
them; every other word decodes, and the step executes it. -/
theorem illegalWordsAnswerErrIllegal : Obligations.IllegalWordsAnswerErrIllegal := by
  unfold Obligations.IllegalWordsAnswerErrIllegal
  intro s w rest hs
  constructor
  · intro hw
    exact ⟨_, (step_cons hs).trans (acceptWord_none (decode_of_illegalWord hw) _), answersError_raised _ .illegal⟩
  · intro hw
    obtain ⟨i, hi⟩ := (not_illegalWord_iff w).1 hw
    exact ⟨i, hi, (step_cons hs).trans (acceptWord_some hi _)⟩

/-! ### The opcode table (rule R46) -/

/-- The encoding of an instruction is a word of the row that carries its mnemonic. -/
theorem encodesItsRow (i : Instr) : Laws.EncodesItsRow.Statement i := by
  open Laws.EncodesItsRow in
  cases i with
  | bvinit n => exact bvinit n
  | bvrestore len => exact bvrestore len
  | bvorb addr byte => exact bvorb addr byte
  | bvrdb addr => exact bvrdb addr
  | bvset pos => exact bvset pos
  | bvtst pos => exact bvtst pos
  | bvsetm v => exact bvsetm v
  | bvtstm v => exact bvtstm v
  | hclr => exact hclr
  | hpush cin => exact hpush cin
  | hroll cin cout => exact hroll cin cout
  | hset => exact hset
  | htst => exact htst
  | hloc k => exact hloc k
  | csrr csr => exact csrr csr
  | csrw csr value => exact csrw csr value

theorem exists_row_of_decode {w : CmdWord} {i : Instr} (h : decode w = some i) :
    ∃ r ∈ opRows, r.mnemonic = i.asm.mnemonic ∧ r.covers w = true :=
  encode_of_decode h ▸ encodesItsRow i

theorem row_eq_of_mnemonic_eq {r r' : OpRow} (hr : r ∈ opRows) (hr' : r' ∈ opRows)
    (h : r.mnemonic = r'.mnemonic) : r = r' :=
  List.inj_on_of_nodup_map (show (opRows.map OpRow.mnemonic).Nodup by decide) hr hr' h

theorem row_eq_of_op_eq {r r' : OpRow} (hr : r ∈ opRows) (hr' : r' ∈ opRows)
    (h : CmdWord.op r.pattern = CmdWord.op r'.pattern) : r = r' :=
  List.inj_on_of_nodup_map (show (opRows.map fun r => CmdWord.op r.pattern).Nodup by decide) hr hr' h

/-- A field a row fixes: its mask there is all ones, and its pattern is the value. -/
abbrev Fixes {n : Nat} (mask pattern value : BitVec n) : Prop := mask = BitVec.allOnes n ∧ pattern = value

theorem Fixes.eq_of_and {n : Nat} {x mask pattern value : BitVec n} (hf : Fixes mask pattern value)
    (h : x &&& mask = pattern) : x = value := by
  obtain ⟨rfl, rfl⟩ := hf
  rwa [BitVec.and_allOnes] at h

theorem row_op_defined : ∀ r ∈ opRows, CmdWord.op r.pattern ∈ definedOps := by decide

theorem row_fixes_op : ∀ r ∈ opRows, Fixes (CmdWord.op r.mask) (CmdWord.op r.pattern) (CmdWord.op r.pattern) := by
  decide

theorem row_fixes_rsv : ∀ r ∈ opRows, Fixes (CmdWord.rsv r.mask) (CmdWord.rsv r.pattern) 0 := by decide

theorem row_fixes_a : ∀ r ∈ opRows, CmdWord.op r.pattern ∈ opsWithoutA →
    Fixes (CmdWord.a r.mask) (CmdWord.a r.pattern) 0 := by decide

theorem row_fixes_b : ∀ r ∈ opRows, CmdWord.op r.pattern ∈ opsWithoutB →
    Fixes (CmdWord.b r.mask) (CmdWord.b r.pattern) 0 := by decide

theorem row_fixes_bitsAbove8 : ∀ r ∈ opRows, CmdWord.op r.pattern = 0x21 →
    Fixes (bitsAbove8 (CmdWord.b r.mask)) (bitsAbove8 (CmdWord.b r.pattern)) 0 := by decide

theorem row_fixes_bitsAbove16 : ∀ r ∈ opRows, CmdWord.op r.pattern = 0x22 →
    Fixes (bitsAbove16 (CmdWord.b r.mask)) (bitsAbove16 (CmdWord.b r.pattern)) 0 := by decide

theorem bitsAbove8_and (b m : Word) : bitsAbove8 (b &&& m) = bitsAbove8 b &&& bitsAbove8 m := BitVec.extractLsb'_and ..

theorem bitsAbove16_and (b m : Word) : bitsAbove16 (b &&& m) = bitsAbove16 b &&& bitsAbove16 m :=
  BitVec.extractLsb'_and ..

section

variable {r : OpRow} {w : CmdWord}

/-- A row's test, field by field. -/
theorem covers_iff : r.covers w = true ↔
    CmdWord.op w &&& CmdWord.op r.mask = CmdWord.op r.pattern ∧
      CmdWord.a w &&& CmdWord.a r.mask = CmdWord.a r.pattern ∧
      CmdWord.rsv w &&& CmdWord.rsv r.mask = CmdWord.rsv r.pattern ∧
      CmdWord.b w &&& CmdWord.b r.mask = CmdWord.b r.pattern := by
  rw [OpRow.covers, beq_iff_eq, CmdWord.and_eq_iff]

theorem op_eq_of_covers (hr : r ∈ opRows) (h : r.covers w = true) : CmdWord.op w = CmdWord.op r.pattern := by
  obtain ⟨hop, -, -, -⟩ := covers_iff.1 h
  exact (row_fixes_op r hr).eq_of_and hop

/-- The masks fix the fields rule R48 wants zero. -/
theorem not_illegalWord_of_covers (hr : r ∈ opRows) (h : r.covers w = true) : ¬ IllegalWord w := by
  have hop := op_eq_of_covers hr h
  obtain ⟨-, ha, hrsv, hb⟩ := covers_iff.1 h
  rw [not_illegalWord_iff_fields, hop]
  exact
    { left := (row_fixes_rsv r hr).eq_of_and hrsv
      right :=
        { defined := row_op_defined r hr
          a_zero := fun ho => (row_fixes_a r hr ho).eq_of_and ha
          b_zero := fun ho => (row_fixes_b r hr ho).eq_of_and hb
          hpush := fun ho => (row_fixes_bitsAbove8 r hr ho).eq_of_and (by rw [← bitsAbove8_and, hb])
          hroll := fun ho => (row_fixes_bitsAbove16 r hr ho).eq_of_and (by rw [← bitsAbove16_and, hb]) } }

/-- At most one row matches: each has an opcode of its own. -/
theorem row_eq_of_covers {r' : OpRow} (hr : r ∈ opRows) (hr' : r' ∈ opRows) (h : r.covers w = true)
    (h' : r'.covers w = true) : r' = r :=
  row_eq_of_op_eq hr' hr ((op_eq_of_covers hr' h').symm.trans (op_eq_of_covers hr h))

/-- The decoder is the table's: the row that covers a word is the one of the command the word decodes to. -/
theorem covers_iff_decode (hr : r ∈ opRows) :
    r.covers w = true ↔ ∃ i, decode w = some i ∧ i.asm.mnemonic = r.mnemonic := by
  constructor
  · intro h
    obtain ⟨i, hi⟩ := (not_illegalWord_iff w).1 (not_illegalWord_of_covers hr h)
    obtain ⟨r', hr', hm, h'⟩ := exists_row_of_decode hi
    exact ⟨i, hi, row_eq_of_covers hr hr' h h' ▸ hm.symm⟩
  · rintro ⟨i, hi, hm⟩
    obtain ⟨r', hr', hm', h'⟩ := exists_row_of_decode hi
    exact row_eq_of_mnemonic_eq hr' hr (hm'.trans hm) ▸ h'

end

/-- Settles O3: the masks fix what the decoder checks, and mnemonics and opcodes tell the rows apart. -/
theorem wordsOfTheOpcodeTableDecode : Obligations.WordsOfTheOpcodeTableDecode := by
  unfold Obligations.WordsOfTheOpcodeTableDecode
  exact fun _ _ hr => ⟨covers_iff_decode hr, fun _ hr' h h' => row_eq_of_covers hr hr' h h'⟩

/-! ### The words' layout (rules R44, R45, R51) -/

/-- Settles O4: eight concrete words. -/
theorem writtenOutWordsDecode : Obligations.WrittenOutWordsDecode := by
  unfold Obligations.WrittenOutWordsDecode
  decide

/-- Settles O5: each field is a quotient of the word, cut to the field's width. -/
theorem commandWordIsItsFourFields : Obligations.CommandWordIsItsFourFields := by
  unfold Obligations.CommandWordIsItsFourFields
  intro w
  have := w.isLt
  simp only [CmdWord.op, CmdWord.a, CmdWord.rsv, CmdWord.b, BitVec.extractLsb'_toNat, Nat.shiftRight_eq_div_pow]
  omega

/-- Settles O8, which is the layout lemma of the response word. -/
theorem responseWordLayout : Obligations.ResponseWordLayout := by
  unfold Obligations.ResponseWordLayout
  exact rspWord_toNat

/-! ### The assembler's lines (rule R51) -/

theorem asmField_toNat {w : Nat} (x : BitVec w) : asmField w (some x.toNat) = some x := by
  simp [asmField, x.isLt]

@[simp] theorem field_num {w : Nat} (x : BitVec w) : (AsmOperand.num x.toNat).field w = some x := asmField_toNat x

@[simp] theorem byteField_num (x : Byte) : (AsmOperand.num x.toNat).byteField = some x := asmField_toNat x

@[simp] theorem csrField_num (x : Byte) : (AsmOperand.num x.toNat).csrField = some x := asmField_toNat x

/-- Settles O7: a number operand is its field again, and the mnemonic chooses the command. -/
theorem assemblerLinesAssembleBack : Obligations.AssemblerLinesAssembleBack := by
  unfold Obligations.AssemblerLinesAssembleBack
  intro i
  cases i with
  | hclr | hset | htst => rfl
  | bvorb _ _ | hroll _ _ | csrw _ _ => simp [Instr.asm, assemble, assemble2]
  | _ => simp [Instr.asm, assemble, assemble1]

end Sys2Proof
end

section
/-! The encoding family, the step: from a state with rule R17's invariant every command completes, so no event stops
the machine (rules R43, R53, R128), and each accepted word is answered once, in order (rule R43). -/

namespace Sys2Proof.Machine

/-! ### Every command completes (rules R17, R53) -/

/-- A result that is a next state. -/
def Completes (r : Result) : Prop := ∃ t, r = .next t

theorem completes_raise (e : ErrCode) (s : State) : Completes (raise e s) := ⟨_, raise_eq e s⟩

theorem completes_respond (d : Word) (s : State) : Completes (respond d s) := ⟨_, respond_eq d s⟩

theorem completes_ite {c : Prop} [Decidable c] {a b : Result} (ha : c → Completes a) (hb : ¬ c → Completes b) :
    Completes (if c then a else b) := by
  split
  · exact ha ‹_›
  · exact hb ‹_›

/-- A byte access that succeeds does not stop the command. -/
theorem completes_withByte {α : Type} {a : Nat} {o : Option α} {x : α} {k : α → Result} (ho : o = some x)
    (hk : ∀ y, Completes (k y)) : Completes (withByte a o k) := by
  rw [ho, withByte_some]
  exact hk x

theorem completes_csrWrite (value : Word) (s : State) (c : Csr) : Completes (csrWrite value s c) := by
  cases c with
  | nlanes => exact completes_ite (fun _ => completes_raise ..) fun _ => completes_respond ..
  | hbase k => exact completes_ite (fun _ => completes_respond ..) fun _ => completes_raise ..
  | _ => exact completes_raise ..

theorem reduced_lt {v bitCount : Word} (h : bitCount ≠ 0) : (reduced v bitCount).toNat < bitCount.toNat := by
  rw [reduced, BitVec.toNat_umod]
  exact Nat.mod_lt _ (Nat.pos_of_ne_zero fun h0 => h (BitVec.eq_of_toNat_eq (by simpa using h0)))

/-- Every position a command accesses is in the bit space, so in a byte that exists. -/
theorem exec_completes {s : State} (hs : Sized s) (i : Instr) : Completes (exec i s) := by
  have hactive (h0 : s.bitCount ≠ 0) (p : Nat) (hp : p ∈ s.activePositions) : p / 8 < s.byteLen.toNat :=
    byteIndex_lt_of_sized hs (activePositions_lt h0 hp)
  cases i with
  | bvinit n => exact completes_ite (fun _ => completes_raise ..) fun _ => completes_respond ..
  | bvrestore len => exact completes_ite (fun _ => completes_raise ..) fun _ => completes_respond ..
  | bvorb addr byte =>
    exact completes_ite (fun _ => completes_raise ..) fun h =>
      completes_withByte (orByte_of_lt _ (Nat.lt_of_not_le h)) fun _ => completes_respond ..
  | bvrdb addr =>
    exact completes_ite (fun _ => completes_raise ..) fun h =>
      completes_withByte (memRead_of_lt (Nat.lt_of_not_le h)) fun _ => completes_respond ..
  | bvset pos =>
    exact completes_ite (fun _ => completes_raise ..) fun h =>
      completes_withByte (setBit_of_lt (byteIndex_lt_of_sized hs (Nat.lt_of_not_le h))) fun _ => completes_respond ..
  | bvtst pos =>
    exact completes_ite (fun _ => completes_raise ..) fun h =>
      completes_withByte (isBitSet_eq (byteIndex_lt_of_sized hs (Nat.lt_of_not_le h))) fun _ => completes_respond ..
  | bvsetm v =>
    exact completes_ite (fun _ => completes_raise ..) fun h =>
      completes_withByte (setBit_of_lt (byteIndex_lt_of_sized hs (reduced_lt h))) fun _ => completes_respond ..
  | bvtstm v =>
    exact completes_ite (fun _ => completes_raise ..) fun h =>
      completes_withByte (isBitSet_eq (byteIndex_lt_of_sized hs (reduced_lt h))) fun _ => completes_respond ..
  | hclr => exact completes_respond ..
  | hpush cin => exact completes_respond ..
  | hroll cin cout => exact completes_ite (fun _ => completes_raise ..) fun _ => completes_respond ..
  | hset =>
    refine completes_ite (fun _ => completes_raise ..) fun h => ?_
    obtain ⟨u, hu, -, -⟩ := setBits_spec s.activePositions s (hactive h)
    exact completes_withByte hu fun _ => completes_respond ..
  | htst =>
    exact completes_ite (fun _ => completes_raise ..) fun h =>
      completes_withByte (allBitsSet_spec _ _ (hactive h)) fun _ => completes_respond ..
  | hloc k =>
    change Completes (execHloc k s)
    unfold execHloc
    split
    · exact completes_raise ..
    · exact completes_ite (fun _ => completes_raise ..) fun _ => completes_respond ..
  | csrr csr =>
    change Completes (execCsrr csr s)
    unfold execCsrr
    split
    · exact completes_respond ..
    · exact completes_raise ..
  | csrw csr value =>
    change Completes (execCsrw csr value s)
    unfold execCsrw
    split
    · exact completes_csrWrite ..
    · exact completes_raise ..

/-! ### One word, one response (rule R43) -/

theorem Inv.toSized {s : State} (h : Inv s) : Sized s := by
  have := h.sized
  unfold Sized
  omega

/-- A command, whether it errs or not, appends its response and leaves the host's plans. -/
theorem exec_appends_response {i : Instr} {s t : State} (ht : exec i s = .next t) :
    t.inbox = s.inbox ∧ ∃ r, t.rsps = s.rsps ++ [r] := by
  obtain ⟨hr, ⟨-, -, hinbox⟩, -⟩ := commandsWriteOnlyTheirColumn s t i ht
  exact ⟨hinbox, hr⟩

/-- Any accepted word, legal or not, is answered with one response. -/
theorem acceptWord_answers {s : State} (hs : Sized s) (w : CmdWord) :
    ∃ t r, acceptWord w s = .next t ∧ t.inbox = s.inbox ∧ t.rsps = s.rsps ++ [r] := by
  cases hw : decode w with
  | none => exact ⟨_, _, acceptWord_none hw s, rfl, rfl⟩
  | some i =>
    obtain ⟨t, ht⟩ := exec_completes hs i
    obtain ⟨hinbox, r, hr⟩ := exec_appends_response ht
    exact ⟨t, r, (acceptWord_some hw s).trans ht, hinbox, hr⟩

theorem step_take {s : State} {rest : List HostEvent} (h : s.inbox = .take :: rest) :
    step s = .next { s with inbox := rest, rsps := s.rsps.tail } := step_cons h

theorem acceptEvent_completes {s : State} (hs : Sized s) (e : HostEvent) : Completes (acceptEvent e s) := by
  cases e with
  | command w =>
    obtain ⟨t, -, ht, -⟩ := acceptWord_answers hs w
    exact ⟨t, ht⟩
  | take => exact ⟨_, rfl⟩
  | reset => exact ⟨_, rfl⟩

theorem step_completes {s : State} (hs : Sized s) : Completes (step s) := by
  cases hi : s.inbox with
  | nil => exact ⟨s, step_nil hi⟩
  | cons e rest => exact step_cons hi ▸ acceptEvent_completes (s := { s with inbox := rest }) hs e

end Sys2Proof.Machine

namespace Sys2Proof

open Sys2Proof.Machine

/-- Settles O15: the one fault is an access outside the buffer, and a sized vector has a byte for every position. -/
theorem stepNeverStops : Obligations.StepNeverStops := by
  unfold Obligations.StepNeverStops
  exact fun _ h => step_completes h.toSized

/-- Settles O10: the command's clause from `acceptWord_answers`; the others are what a take and a reset do. -/
theorem everyCommandGetsOneResponseInOrder : Obligations.EveryCommandGetsOneResponseInOrder := by
  unfold Obligations.EveryCommandGetsOneResponseInOrder
  intro s h
  refine ⟨fun w rest hi => ?_, fun rest r rs hi hr => ?_, fun rest hi hr => ?_, fun rest hi => ?_⟩
  · obtain ⟨t, r, ht, hinbox, hr⟩ := acceptWord_answers (s := { s with inbox := rest }) h.toSized w
    exact ⟨t, r, (step_cons hi).trans ht, hinbox, hr⟩
  · exact ⟨_, step_take hi, rfl, by simp [hr]⟩
  · rw [step_take hi, hr, List.tail_nil, ← hr]
  · exact ⟨_, step_cons hi, rfl⟩

/-- Settles O9: the step on each kind of inbox. -/
theorem stepRunsTheDecodedCommand : Obligations.StepRunsTheDecodedCommand := by
  unfold Obligations.StepRunsTheDecodedCommand
  refine ⟨fun s w rest i hs hw => ?_, fun s rest hs => ?_, fun s hs => step_nil hs⟩
  · exact (step_cons hs).trans (acceptWord_some hw _)
  · rw [step_take hs, List.drop_one]

end Sys2Proof
end

section
/-! The bit-vector family: for each command of spec/40_bitvector.md the answer it ends in, as an equation, with its
whole effect and frame; that bits only rise between constructions (rule R63); and that the bit commands stay within
the bit space (rule R64). -/

namespace Sys2Proof.Machine

/-! ### What the operands compute (rules R7, R61) -/

theorem reduced_toNat (v bitCount : Word) : (reduced v bitCount).toNat = v.toNat % bitCount.toNat :=
  BitVec.toNat_umod

theorem boolData_toNat (b : Bool) : (boolData b).toNat = if b then 1 else 0 := by
  cases b <;> rfl

theorem zext32_toNat (b : Byte) : (zext32 b).toNat = b.toNat :=
  BitVec.toNat_setWidth_of_le (by decide)

theorem word_eq_zero_iff {x : Word} : x = 0 ↔ x.toNat = 0 :=
  BitVec.toNat_eq

/-- Within a legal capacity, the `8 * len` bits of `BVRESTORE` take `len` bytes. -/
theorem ceil8_eight_mul {len : Word} (h : len.toNat ≤ 2 ^ 28) : ceil8 (8 * len).toNat = len.toNat := by
  rw [eight_mul_toNat h, ceil8]
  omega

/-! ### What a bit-vector command answers and leaves alone (rules R8, R28, R103) -/

section

variable {s t : State} {d : Word} {k : Nat}

/-- A command that raises answers that error. -/
theorem answersError_of_eq_raise {i : Instr} {e : ErrCode} (h : exec i s = raise e s) :
    ∃ t, exec i s = .next t ∧ AnswersError s t e.number :=
  ⟨_, h, answersError_raised s e⟩

/-- A command that only responds changes nothing but the answer. -/
theorem answersOk_of_eq_respond {i : Instr} (h : exec i s = respond d s) (hd : d.toNat = k) :
    ∃ t, exec i s = .next t ∧ AnswersOk s t k ∧ SameButAnswer s t :=
  ⟨_, h, hd ▸ answersOk_offer s s d rfl rfl, rfl⟩

/-- After a construction: every byte 0, the answer, and what a construction leaves alone (rules R28, R55, R56). -/
theorem constructed_frame {bits bytes : Word} (ht : t = (s.constructed bits bytes).offer (rspWord 0 d))
    (hd : d.toNat = k) :
    (∀ a, byteAt t a = 0) ∧ AnswersOk s t k ∧ SameEngine s t ∧ t.nlanes = s.nlanes ∧ SameSurroundings s t := by
  subst ht hd
  exact ⟨fun _ => rfl, answersOk_offer s _ d rfl rfl, ⟨rfl, rfl⟩, rfl, rfl, rfl, rfl⟩

/-- After an OR into the byte at `a`: every other byte, the answer, and what the OR leaves alone (rules R28, R57). -/
theorem ored_frame {a : Nat} {v : Byte} (ht : t = (s.ored a v).offer (rspWord 0 d)) (hd : d.toNat = k) :
    (∀ b, b ≠ a → byteAt t b = byteAt s b) ∧ t.bitCount = s.bitCount ∧ t.byteLen = s.byteLen ∧
      AnswersOk s t k ∧ SameEngine s t ∧ t.nlanes = s.nlanes ∧ SameSurroundings s t := by
  subst ht hd
  exact ⟨fun b hb => (byteAt_ored s a v b).trans (if_neg hb), rfl, rfl, answersOk_offer s _ d rfl rfl, ⟨rfl, rfl⟩,
    rfl, rfl, rfl, rfl⟩

end

/-! ### The commands as equations (rules R55 to R62) -/

section

variable {s : State}

theorem exec_bvinit_of_le {n : Word} (h : ceil8 n.toNat ≤ s.capBytes.toNat) :
    exec (.bvinit n) s =
      respond (BitVec.ofNat 32 (ceil8 n.toNat)) (s.constructed n (BitVec.ofNat 32 (ceil8 n.toNat))) :=
  if_neg (Nat.not_lt.2 h)

theorem exec_bvrestore_of_le {len : Word} (h : len.toNat ≤ s.capBytes.toNat) :
    exec (.bvrestore len) s = respond (8 * len) (s.constructed (8 * len) len) :=
  if_neg (Nat.not_lt.2 h)

theorem exec_bvorb_of_lt {addr : Word} (byte : Byte) (h : addr.toNat < s.byteLen.toNat) :
    exec (.bvorb addr byte) s = respond 0 (s.ored addr.toNat byte) := by
  change execBvorb addr byte s = _
  rw [execBvorb, if_neg (Nat.not_le.2 h), orByte_of_lt byte h, withByte_some]

theorem exec_bvrdb_of_lt {addr : Word} (h : addr.toNat < s.byteLen.toNat) :
    exec (.bvrdb addr) s = respond (zext32 (byteAt s addr.toNat)) s := by
  change execBvrdb addr s = _
  rw [execBvrdb, if_neg (Nat.not_le.2 h), memRead_of_lt h, withByte_some]

theorem exec_bvsetm_of_ne (hs : Sized s) (v : Word) (h : s.bitCount ≠ 0) :
    exec (.bvsetm v) s = respond (reduced v s.bitCount)
      (s.ored ((reduced v s.bitCount).toNat / 8) (bitMask (reduced v s.bitCount).toNat)) := by
  change execBvsetm v s = _
  simp only [execBvsetm, if_neg h, setBit_of_lt (byteIndex_lt_of_sized hs (reduced_lt (v := v) h)), withByte_some]

theorem exec_bvtstm_of_ne (hs : Sized s) (v : Word) (h : s.bitCount ≠ 0) :
    exec (.bvtstm v) s = respond (boolData (bitAt s (reduced v s.bitCount).toNat)) s := by
  change execBvtstm v s = _
  simp only [execBvtstm, if_neg h, isBitSet_eq (byteIndex_lt_of_sized hs (reduced_lt (v := v) h)), withByte_some]

end

/-! ### No write outside the bit space (rule R64) -/

theorem bitAt_setBits_of_notMem {ps : List Nat} {s t : State} (h : setBits s ps = some t) {q : Nat} (hq : q ∉ ps) :
    bitAt t q = bitAt s q := by
  obtain ⟨hps, -⟩ := setBits_orRun ps s t h
  obtain ⟨u, hu, -, hbit⟩ := setBits_spec ps s hps
  obtain rfl : u = t := Option.some.inj (hu.symm.trans h)
  rw [Bool.eq_iff_iff, hbit]
  simp [hq]

theorem bitAt_setBit_of_ne (s : State) {p q : Nat} (h : q ≠ p) :
    bitAt (s.ored (p / 8) (bitMask p)) q = bitAt s q := by
  simp [bitAt_setBit, h]

/-- Each position a bit command sets is below `BITCOUNT`. -/
theorem okEffect_bitAt_padding {i : Instr} {s u : State} {p : Nat}
    (hi : i = .hset ∨ (∃ pos, i = .bvset pos) ∨ ∃ v, i = .bvsetm v) (h : OkEffect s i u)
    (hp : s.bitCount.toNat ≤ p) : bitAt u p = bitAt s p := by
  obtain rfl | ⟨pos, rfl⟩ | ⟨v, rfl⟩ := hi
  · obtain ⟨h0, hu⟩ := h
    exact bitAt_setBits_of_notMem hu fun hmem => absurd (activePositions_lt h0 hmem) (Nat.not_lt.2 hp)
  · obtain ⟨hpos, -, rfl⟩ := h
    exact bitAt_setBit_of_ne s (by omega)
  · obtain ⟨h0, -, rfl⟩ := h
    have hv : (v % s.bitCount).toNat < s.bitCount.toNat := reduced_lt h0
    exact bitAt_setBit_of_ne s (by omega)

/-! ### No read outside the bit space (rule R64) -/

section

variable {s s' : State}

theorem isBitSet_congr {p : Nat} (hlen : s'.byteLen = s.byteLen) (h : bitAt s' p = bitAt s p) :
    isBitSet s' p = isBitSet s p := by
  ext b
  rw [isBitSet_eq_some, isBitSet_eq_some, hlen, h]

theorem allBitsSet_congr {ps : List Nat} (hlen : s'.byteLen = s.byteLen) (h : ∀ p ∈ ps, bitAt s' p = bitAt s p) :
    allBitsSet s' ps = allBitsSet s ps := by
  induction ps with
  | nil => rfl
  | cons p ps ih =>
    rw [allBitsSet, allBitsSet, isBitSet_congr hlen (h p List.mem_cons_self),
      ih fun q hq => h q (List.mem_cons_of_mem p hq)]

/-- The form of the three tests: a check, then the answer to a question about bits. With another buffer that answers
the question the same, the whole test ends the same. -/
theorem bitTest_withBuf {c : Prop} [Decidable c] {e : ErrCode} {a : Nat} {o o' : Option Bool} {m : Memory} {t : State}
    (ho : ¬ c → o' = o) (h : (if c then raise e s else withByte a o fun b => respond (boolData b) s) = .next t) :
    (if c then raise e { s with buf := m } else withByte a o' fun b => respond (boolData b) { s with buf := m }) =
      .next { t with buf := m } := by
  by_cases hc : c
  · rw [if_pos hc] at h ⊢
    cases h
    rfl
  · rw [if_neg hc] at h ⊢
    obtain ⟨b, hb, hr⟩ := withByte_eq_next h
    cases hr
    rw [ho hc, hb]
    rfl

/-- Each position a bit test asks about is below `BITCOUNT`. -/
theorem exec_bitTest_withBuf {i : Instr} {m : Memory} {t : State}
    (hi : i = .htst ∨ (∃ pos, i = .bvtst pos) ∨ ∃ v, i = .bvtstm v)
    (hbits : ∀ p, p < s.bitCount.toNat → bitAt { s with buf := m } p = bitAt s p) (h : exec i s = .next t) :
    exec i { s with buf := m } = .next { t with buf := m } := by
  have hbit (p : Nat) (hp : p < s.bitCount.toNat) : isBitSet { s with buf := m } p = isBitSet s p :=
    isBitSet_congr rfl (hbits p hp)
  obtain rfl | ⟨pos, rfl⟩ | ⟨v, rfl⟩ := hi
  · have hall (h0 : s.bitCount ≠ 0) :
        allBitsSet { s with buf := m } s.activePositions = allBitsSet s s.activePositions :=
      allBitsSet_congr rfl fun p hp => hbits p (activePositions_lt h0 hp)
    exact bitTest_withBuf (s := s) hall h
  · exact bitTest_withBuf (s := s) (fun hp => hbit _ (Nat.lt_of_not_le hp)) h
  · exact bitTest_withBuf (s := s) (fun h0 => hbit _ (reduced_lt h0)) h

end

end Sys2Proof.Machine

namespace Sys2Proof

open Sys2Proof.Machine

/-- Settles O20: within the capacity the byte count fits its register, and the state is a constructed one. -/
theorem bvinitBuildsAZeroedVector : Obligations.BvinitBuildsAZeroedVector := by
  unfold Obligations.BvinitBuildsAZeroedVector
  intro s n
  exact ⟨fun h => ⟨_, exec_bvinit_of_le h, rfl, ceil8_toNat n, constructed_frame rfl (ceil8_toNat n)⟩,
    fun h => answersError_of_eq_raise (e := .cap) (if_pos h)⟩

/-- Settles O21: a legal capacity keeps `8 * len` in its register, and the state is a constructed one. -/
theorem bvrestoreBuildsAZeroedVector : Obligations.BvrestoreBuildsAZeroedVector := by
  unfold Obligations.BvrestoreBuildsAZeroedVector
  intro s len hcap
  refine ⟨fun h => ?_, fun h => answersError_of_eq_raise (e := .cap) (if_pos h)⟩
  have h8 : (8 * len).toNat = 8 * len.toNat := eight_mul_toNat (h.trans hcap)
  exact ⟨_, exec_bvrestore_of_le h, h8, rfl, constructed_frame rfl h8⟩

/-- Settles O22: both construct `8 * len` bits in `len` bytes. -/
theorem bvrestoreLeavesTheStateOfBvinit : Obligations.BvrestoreLeavesTheStateOfBvinit := by
  unfold Obligations.BvrestoreLeavesTheStateOfBvinit
  intro s len hcap hlen
  have hceil : ceil8 (8 * len).toNat = len.toNat := ceil8_eight_mul (hlen.trans hcap)
  have hinit := exec_bvinit_of_le (hceil.trans_le hlen)
  rw [hceil, ← word_eq_ofNat] at hinit
  exact ⟨_, _, exec_bvrestore_of_le hlen, hinit, rfl⟩

/-- Settles O23: the byte exists exactly where the check passes, and the OR's bits are `bitAt_ored`. -/
theorem bvorbOrsOneByte : Obligations.BvorbOrsOneByte := by
  unfold Obligations.BvorbOrsOneByte
  intro s addr byte
  exact ⟨fun h => ⟨_, exec_bvorb_of_lt byte h, bitAt_ored s addr.toNat byte, ored_frame rfl rfl⟩,
    fun h => answersError_of_eq_raise (e := .range) (if_pos h)⟩

/-- Settles O24: the byte exists exactly where the check passes, and zero-extension keeps its number. -/
theorem bvrdbReadsOneByte : Obligations.BvrdbReadsOneByte := by
  unfold Obligations.BvrdbReadsOneByte
  intro s addr
  exact ⟨fun h => answersOk_of_eq_respond (exec_bvrdb_of_lt h) (zext32_toNat _),
    fun h => answersError_of_eq_raise (e := .range) (if_pos h)⟩

/-- Settles O25: a position of the bit space lies in a byte that exists, and `setBit` sets that bit alone. -/
theorem bvsetSetsExactlyOneBit : Obligations.BvsetSetsExactlyOneBit := by
  unfold Obligations.BvsetSetsExactlyOneBit
  intro s pos hs
  exact ⟨fun h => ⟨_, exec_bvset_of_lt hs h, bitAt_setBit s pos.toNat, ored_frame rfl rfl⟩,
    fun h => answersError_of_eq_raise (e := .range) (if_pos h)⟩

/-- Settles O26: a position of the bit space lies in a byte that exists, and the command only responds. -/
theorem bvtstAnswersTheBit : Obligations.BvtstAnswersTheBit := by
  unfold Obligations.BvtstAnswersTheBit
  intro s pos hs
  exact ⟨fun h => answersOk_of_eq_respond (exec_bvtst_of_lt hs h) (boolData_toNat _),
    fun h => answersError_of_eq_raise (e := .range) (if_pos h)⟩

/-- Settles O27: as O25, at the reduced position, which is also the answer. -/
theorem bvsetmSetsTheReducedBit : Obligations.BvsetmSetsTheReducedBit := by
  unfold Obligations.BvsetmSetsTheReducedBit
  intro s v hs
  rw [← reduced_toNat, Ne, ← word_eq_zero_iff]
  exact ⟨fun h => ⟨_, exec_bvsetm_of_ne hs v h, bitAt_setBit s _, ored_frame rfl rfl⟩,
    fun h => answersError_of_eq_raise (e := .zeroSize) (if_pos h)⟩

/-- Settles O28: as O26, at the reduced position. -/
theorem bvtstmAnswersTheReducedBit : Obligations.BvtstmAnswersTheReducedBit := by
  unfold Obligations.BvtstmAnswersTheReducedBit
  intro s v hs
  rw [← reduced_toNat, Ne, ← word_eq_zero_iff]
  exact ⟨fun h => answersOk_of_eq_respond (exec_bvtstm_of_ne hs v h) (boolData_toNat _),
    fun h => answersError_of_eq_raise (e := .zeroSize) (if_pos h)⟩

/-- Settles O29: an idle step changes nothing, and every other event keeps each set bit. -/
theorem bitsNeverFallBetweenConstructions : Obligations.BitsNeverFallBetweenConstructions := by
  unfold Obligations.BitsNeverFallBetweenConstructions
  intro s t p hkeeps ht hp
  obtain ⟨-, rfl⟩ | ⟨e, rest, hi, he⟩ := step_cases ht
  · exact hp
  · obtain ⟨-, -, hbit⟩ := acceptEvent_bitsKept he (hkeeps e rest hi)
    exact hbit p hp

/-- Settles O31: an error answer changes no bit, and an OK answer none outside the bit space. -/
theorem paddingBitsAreNeverSetByBitCommands : Obligations.PaddingBitsAreNeverSetByBitCommands := by
  unfold Obligations.PaddingBitsAreNeverSetByBitCommands
  intro s t i p hi ht hp
  obtain ⟨e, rfl⟩ | ⟨u, d, hu, rfl⟩ := exec_cases ht
  · rfl
  · have hbit : bitAt u p = bitAt s p := okEffect_bitAt_padding hi hu hp
    exact hbit

/-- Settles O32: each test asks about positions of the bit space alone, where the two buffers agree. -/
theorem paddingBitsAreNeverReadByBitTests : Obligations.PaddingBitsAreNeverReadByBitTests := by
  unfold Obligations.PaddingBitsAreNeverReadByBitTests
  intro s s' t i hi hs' hbits ht
  rw [hs'] at hbits ⊢
  exact exec_bitTest_withBuf hi hbits ht

end Sys2Proof
end

section
/-! The hash-engine family: what `HCLR`, `HPUSH` and `HROLL` do to each lane (rules R66 to R69), and, over runs of host
events, the window the lanes hold: the from-scratch law, the rolling law, and agreement with the exact polynomial
(rules R70 to R73). -/

namespace Sys2Proof.Machine

/-! ### The engine commands as equations (rules R67 to R69) -/

section

variable {s : State}

theorem exec_hclr (s : State) : exec .hclr s = respond 0 s.windowCleared := rfl

theorem exec_hpush (cin : Byte) (s : State) : exec (.hpush cin) s = respond 0 (s.windowPushed cin) := rfl

theorem exec_hroll_of_ne (cin cout : Byte) (h : s.cnt ≠ 0) :
    exec (.hroll cin cout) s = respond 0 (s.windowRolled cin cout) :=
  if_neg h

theorem exec_hroll_of_eq (cin cout : Byte) (h : s.cnt = 0) : exec (.hroll cin cout) s = raise .empty s :=
  if_pos h

/-- What an OK answer to an engine command leaves alone: it updates each lane and `CNT`, and responds 0 (rules R8,
R28). -/
theorem windowUpdate_frame {t : State} {g : Lane → Lane} {c : Word}
    (ht : t = State.offer { s with lanes := s.lanes.map g, cnt := c } (rspWord 0 0)) :
    t.nlanes = s.nlanes ∧ SameVector s t ∧ AnswersOk s t 0 ∧ SameSurroundings s t := by
  subst ht
  exact ⟨rfl, ⟨rfl, rfl, fun _ => rfl⟩, answersOk_offer s _ 0 rfl rfl, rfl, by simp, rfl⟩

/-- Rule R66: an engine command applies to every lane one update, which `CNT` alone determines. -/
theorem exec_engine_lanes {i : Instr} (hi : i = .hclr ∨ (∃ c, i = .hpush c) ∨ ∃ c d, i = .hroll c d) (cnt : Word) :
    ∃ g : Lane → Lane, ∀ s t, s.cnt = cnt → exec i s = .next t → t.lanes = s.lanes.map g := by
  obtain rfl | ⟨cin, rfl⟩ | ⟨cin, cout, rfl⟩ := hi
  · refine ⟨Lane.cleared, ?_⟩
    rintro s t - ht
    cases ht
    rfl
  · refine ⟨Lane.pushed (cnt != 0) cin, ?_⟩
    rintro s t rfl ht
    cases ht
    rfl
  · by_cases h0 : cnt = 0
    · refine ⟨id, ?_⟩
      rintro s t rfl ht
      rw [exec_hroll_of_eq cin cout h0] at ht
      cases ht
      simp
    · refine ⟨Lane.rolled cin cout, ?_⟩
      rintro s t rfl ht
      rw [exec_hroll_of_ne cin cout h0] at ht
      cases ht
      rfl

end

/-! ### The lane updates as numbers (rules R12, R68, R69) -/

theorem sat32_toNat (n : Nat) : (sat32 n).toNat = min n (2 ^ 32 - 1) :=
  Nat.mod_eq_of_lt (by omega)

/-- Counting on from a saturated count is counting on from the count. -/
theorem sat32_succ (n : Nat) : sat32 ((sat32 n).toNat + 1) = sat32 (n + 1) :=
  BitVec.eq_of_toNat_eq (by simp only [sat32_toNat]; omega)

theorem sat32_length_ne_zero {b : List Byte} : sat32 b.length ≠ 0 ↔ b ≠ [] := by
  rw [Ne, word_eq_zero_iff, sat32_toNat, Ne, ← List.length_eq_zero_iff]
  omega

theorem Lane.pushed_hash_toNat (l : Lane) (g : Bool) (cin : Byte) :
    (l.pushed g cin).hash.toNat = (l.hash.toNat * l.base.toNat + cin.toNat) % 2 ^ 32 := by
  rw [Lane.pushed_hash, BitVec.toNat_add, BitVec.toNat_mul, zext32_toNat, Nat.mod_add_mod]

/-- Subtraction may wrap below zero: the integers modulo `2^32` are the words. -/
theorem Lane.rolled_hash_toNat (l : Lane) (cin cout : Byte) : ((l.rolled cin cout).hash.toNat : Int) =
    (((l.hash.toNat : Int) - cout.toNat * l.pow.toNat) * l.base.toNat + cin.toNat) % 2 ^ 32 := by
  have hword : (l.rolled cin cout).hash = BitVec.ofInt 32
      (((l.hash.toNat : Int) - cout.toNat * l.pow.toNat) * l.base.toNat + cin.toNat) := by
    rw [sub_eq_add_neg]
    simp only [BitVec.ofInt_add, BitVec.ofInt_mul, BitVec.ofInt_neg, BitVec.ofInt_natCast, ← word_eq_ofNat, ← zext32_eq,
      Lane.rolled_hash, BitVec.sub_eq_add_neg]
  rw [hword, BitVec.toNat_ofInt, Int.toNat_of_nonneg (Int.emod_nonneg _ (by norm_num))]
  norm_num

/-! ### The window a lane holds (rules R70 to R73) -/

theorem Lane.window_holds (b : List Byte) (l : Lane) : (l.window b).holds b := ⟨rfl, rfl⟩

theorem Lane.holds.eq_window {l : Lane} {b : List Byte} (h : l.holds b) : l = l.window b := by
  obtain ⟨hhash, hpow⟩ := h
  rw [Lane.window, ← hhash, ← hpow]

theorem poly32_toNat (p : Word) (b : List Byte) : (poly32 p b).toNat = poly p.toNat b % 2 ^ 32 :=
  BitVec.toNat_ofNat ..

/-- Rule R72 in one lane: with the right outgoing byte, the error term of rule R120 is 0. -/
theorem Lane.holds.rolled {l : Lane} {c : Byte} {a : List Byte} (h : l.holds (c :: a)) (cin : Byte) :
    (l.rolled cin c).holds (a ++ [cin]) := by
  have hhash := l.rolled_hash_of_holds c a cin c h
  rw [sub_self, zero_mul, add_zero] at hhash
  obtain ⟨-, hpow⟩ := h
  refine ⟨BitVec.eq_of_toNat_eq ?_, by simpa using hpow⟩
  rw [poly32_toNat]
  exact_mod_cast hhash

theorem Lane.rolled_window (l : Lane) (c : Byte) (a : List Byte) (cin : Byte) :
    (l.window (c :: a)).rolled cin c = l.window (a ++ [cin]) :=
  ((l.window_holds (c :: a)).rolled cin).eq_window

/-- A byte is at most 255, so the polynomial is bounded by a geometric sum. -/
theorem poly_geometric_bound {p q : Nat} (hp : p ≤ q + 1) (b : List Byte) :
    poly p b * q + 255 ≤ 255 * (q + 1) ^ b.length := by
  induction b with
  | nil => simp
  | cons c b ih =>
    have hc : c.toNat ≤ 255 := Nat.le_of_lt_succ c.isLt
    calc poly p (c :: b) * q + 255 = c.toNat * p ^ b.length * q + (poly p b * q + 255) := by rw [poly_cons]; ring
      _ ≤ 255 * (q + 1) ^ b.length * q + 255 * (q + 1) ^ b.length := by gcongr
      _ = 255 * (q + 1) ^ (c :: b).length := by rw [List.length_cons]; ring

/-- Rule R73's bound: `255 * (23^6 - 1) / 22 < 2^32`. -/
theorem poly_lt_of_short {p : Nat} {b : List Byte} (hp : p ≤ 23) (hb : b.length ≤ 6) : poly p b < 2 ^ 32 := by
  have hgeom : poly p b * 22 + 255 ≤ 255 * 23 ^ b.length := poly_geometric_bound hp b
  have hpow : 23 ^ b.length ≤ 23 ^ 6 := Nat.pow_le_pow_right (by norm_num) hb
  omega

/-! ### The window the lanes hold -/

/-- Every lane of `ls` holds the window `b` in `t`, its base kept, and `CNT` is the window's saturated length. -/
structure HasWindow (ls : List Lane) (b : List Byte) (t : State) : Prop where
  lanes : t.lanes = ls.map (Lane.window b)
  cnt : t.cnt = sat32 b.length

section

variable {ls : List Lane} {b : List Byte} {s t : State}

theorem HasWindow.cnt_toNat (h : HasWindow ls b s) : s.cnt.toNat = min b.length (2 ^ 32 - 1) := by
  rw [h.cnt, sat32_toNat]

/-- The window is a matter of the engine alone. -/
theorem HasWindow.of_sameEngine (h : HasWindow ls b s) (hst : SameEngine s t) : HasWindow ls b t := by
  obtain ⟨hlanes, hcnt⟩ := hst
  exact ⟨hlanes.trans h.lanes, hcnt.trans h.cnt⟩

theorem HasWindow.cleared (s : State) : HasWindow s.lanes [] s.windowCleared :=
  ⟨by simp [funext Lane.window_nil], rfl⟩

theorem HasWindow.pushed (h : HasWindow ls b s) (c : Byte) : HasWindow ls (b ++ [c]) (s.windowPushed c) := by
  have hgrown : (s.cnt != 0) = true ↔ b ≠ [] := by rw [bne_iff_ne, h.cnt, sat32_length_ne_zero]
  refine ⟨?_, ?_⟩
  · rw [State.windowPushed_lanes, h.lanes, List.map_map]
    exact List.map_congr_left fun l _ => l.pushed_window b c _ hgrown
  · rw [State.windowPushed_cnt, h.cnt, sat32_succ, List.length_append, List.length_singleton]

theorem HasWindow.rolled {c : Byte} {a : List Byte} (h : HasWindow ls (c :: a) s) (cin : Byte) :
    HasWindow ls (a ++ [cin]) (s.windowRolled cin c) := by
  refine ⟨?_, by simp [h.cnt]⟩
  rw [State.windowRolled_lanes, h.lanes, List.map_map]
  exact List.map_congr_left fun l _ => l.rolled_window c a cin

theorem HasWindow.offer (h : HasWindow ls b s) (r : RspWord) : HasWindow ls b (s.offer r) := ⟨h.lanes, h.cnt⟩

end

/-! ### Runs of engine commands (rules R71, R72) -/

/-- A run of commands that ends has executed the first one and gone on from there. -/
theorem hostRun_sending_cons {i : Instr} {is : List Instr} {s u : State} :
    hostRun (sending (i :: is)) s = .next u ↔ ∃ t, exec i s = .next t ∧ hostRun (sending is) t = .next u := by
  rw [← acceptWord_some (decode_encode i)]
  exact hostRun_cons_eq_next

/-- A run of commands that ends may go on. -/
theorem hostRun_sending_append {is js : List Instr} {s t u : State} (hi : hostRun (sending is) s = .next t)
    (hj : hostRun (sending js) t = .next u) : hostRun (sending (is ++ js)) s = .next u := by
  induction is generalizing s with
  | nil => cases hi; exact hj
  | cons i is ih =>
    obtain ⟨v, hv, hi⟩ := hostRun_sending_cons.1 hi
    exact hostRun_sending_cons.2 ⟨v, hv, ih hi⟩

theorem HasWindow.hostRun_pushes {ls : List Lane} {b : List Byte} {s : State} (h : HasWindow ls b s)
    (cs : List Byte) : ∃ t, hostRun (sending (cs.map .hpush)) s = .next t ∧ HasWindow ls (b ++ cs) t := by
  induction cs generalizing b s with
  | nil => exact ⟨s, rfl, by rwa [List.append_nil]⟩
  | cons c cs ih =>
    obtain ⟨t, ht, hw⟩ := ih ((h.pushed c).offer (rspWord 0 0))
    exact ⟨t, hostRun_sending_cons.2 ⟨_, exec_hpush c s, ht⟩, by simpa using hw⟩

theorem hostRun_hclr_pushes (s : State) (b : List Byte) :
    ∃ t, hostRun (sending (.hclr :: b.map .hpush)) s = .next t ∧ HasWindow s.lanes b t := by
  obtain ⟨t, ht, hw⟩ := ((HasWindow.cleared s).offer (rspWord 0 0)).hostRun_pushes b
  exact ⟨t, hostRun_sending_cons.2 ⟨_, exec_hclr s, ht⟩, hw⟩

/-- The window `b` rolled over the first `i` of the bytes `r` that follow it. -/
theorem HasWindow.hostRun_rolls {ls : List Lane} {b r : List Byte} {i : Nat} {s : State} (h : HasWindow ls b s)
    (hb : b ≠ []) (hi : i ≤ r.length) :
    ∃ t, hostRun (sending (((r.zip (b ++ r)).take i).map fun p => .hroll p.1 p.2)) s = .next t ∧
      HasWindow ls (((b ++ r).drop i).take b.length) t := by
  induction i generalizing b r s with
  | zero => exact ⟨s, rfl, by simpa using h⟩
  | succ i ih =>
    obtain ⟨c, a, rfl⟩ := List.exists_cons_of_ne_nil hb
    obtain ⟨cin, r, rfl⟩ := List.exists_cons_of_length_pos (Nat.zero_lt_of_lt hi)
    have hcnt : s.cnt ≠ 0 := h.cnt ▸ sat32_length_ne_zero.2 hb
    obtain ⟨t, ht, hw⟩ := ih ((h.rolled cin).offer (rspWord 0 0)) (by simp) (Nat.le_of_succ_le_succ hi)
    rw [List.append_assoc, List.singleton_append] at ht hw
    exact ⟨t, hostRun_sending_cons.2 ⟨_, exec_hroll_of_ne cin c hcnt, ht⟩, by simpa using hw⟩

/-! ### Other events between the pushes (rule R71) -/

/-- Of the commands that may stand between the pushes, none but `HPUSH` writes the engine. -/
theorem okEffect_sameEngine {i : Instr} {s u : State} (h : OkEffect s i u)
    (hi : continuesWindowInstr s.lanes.length i = true) (hp : pushedByteInstr i = none) : SameEngine s u := by
  cases i with
  | bvinit _ | bvrestore _ => obtain ⟨-, rfl⟩ := h; exact ⟨rfl, rfl⟩
  | bvorb _ _ | bvset _ | bvsetm _ | hset => rw [(orRun_of_okEffect h rfl).eq_buf]; exact ⟨rfl, rfl⟩
  | hclr | hroll _ _ => simp [continuesWindowInstr] at hi
  | hpush _ => simp [pushedByteInstr] at hp
  | csrw csr value =>
    obtain ⟨-, -, -, rfl⟩ | ⟨k, hk, -, hlt, -⟩ := h
    · exact ⟨rfl, rfl⟩
    · simp [continuesWindowInstr, csrIsBase, hk, hlt] at hi
  | bvrdb _ | bvtst _ | bvtstm _ | htst | hloc _ | csrr _ => obtain rfl : u = s := h; exact ⟨rfl, rfl⟩

theorem pushedByteInstr_eq_some {i : Instr} {c : Byte} : pushedByteInstr i = some c ↔ i = .hpush c := by
  cases i <;> simp [pushedByteInstr]

section

variable {ls : List Lane} {b : List Byte} {s t : State}

theorem HasWindow.of_exec (h : HasWindow ls b s) {i : Instr} (hi : continuesWindowInstr ls.length i = true)
    (ht : exec i s = .next t) : HasWindow ls (b ++ (pushedByteInstr i).toList) t := by
  cases hp : pushedByteInstr i with
  | some c =>
    obtain rfl := pushedByteInstr_eq_some.1 hp
    cases ht
    exact (h.pushed c).offer _
  | none =>
    rw [Option.toList_none, List.append_nil]
    obtain ⟨e, rfl⟩ | ⟨u, d, hu, rfl⟩ := exec_cases ht
    · exact h.of_sameEngine ⟨rfl, rfl⟩
    · have hlen : ls.length = s.lanes.length := by rw [h.lanes, List.length_map]
      exact (h.of_sameEngine (okEffect_sameEngine hu (hlen ▸ hi) hp)).offer _

theorem HasWindow.of_acceptEvent (h : HasWindow ls b s) {e : HostEvent} (he : e.continuesWindow ls.length = true)
    (ht : acceptEvent e s = .next t) : HasWindow ls (b ++ e.pushedByte.toList) t := by
  obtain ⟨w, i, rfl, hw, hx⟩ | ⟨w, rfl, hw, rfl⟩ | ⟨rfl, rfl⟩ | ⟨rfl, -⟩ := acceptEvent_cases ht
  · simp only [HostEvent.continuesWindow, HostEvent.pushedByte, hw] at he ⊢
    exact h.of_exec he hx
  · simpa [HostEvent.pushedByte, hw] using h.of_sameEngine (t := s.raised .illegal) ⟨rfl, rfl⟩
  · simpa [HostEvent.pushedByte] using h.of_sameEngine (t := s.delivered) ⟨rfl, rfl⟩
  · exact absurd he Bool.false_ne_true

theorem pushedBytes_cons (e : HostEvent) (es : List HostEvent) :
    pushedBytes (e :: es) = e.pushedByte.toList ++ pushedBytes es := by
  rw [pushedBytes, List.filterMap_cons]
  cases e.pushedByte <;> rfl

theorem HasWindow.of_hostRun (h : HasWindow ls b s) {es : List HostEvent}
    (hes : ∀ e ∈ es, e.continuesWindow ls.length = true) (ht : hostRun es s = .next t) :
    HasWindow ls (b ++ pushedBytes es) t := by
  induction es generalizing b s with
  | nil => cases ht; rwa [pushedBytes, List.filterMap_nil, List.append_nil]
  | cons e es ih =>
    obtain ⟨v, hv, ht⟩ := hostRun_cons_eq_next.1 ht
    obtain ⟨he, hes⟩ := List.forall_mem_cons.1 hes
    rw [pushedBytes_cons, ← List.append_assoc]
    exact ih (h.of_acceptEvent he hv) hes ht

end

/-- From a state with the invariant no run stops (rules R43, R53). -/
theorem Inv.hostRun_completes {s : State} (h : Inv s) (es : List HostEvent) : Completes (hostRun es s) := by
  induction es generalizing s with
  | nil => exact ⟨s, rfl⟩
  | cons e es ih =>
    obtain ⟨t, ht⟩ := acceptEvent_completes h.toSized e
    obtain ⟨u, hu⟩ := ih (h.of_acceptEvent ht)
    exact ⟨u, hostRun_cons_eq_next.2 ⟨t, ht, hu⟩⟩

end Sys2Proof.Machine

namespace Sys2Proof

open Sys2Proof.Machine

/-- Settles O34: the push in each lane as numbers, and the saturating count. -/
theorem hpushAppendsOneByte : Obligations.HpushAppendsOneByte := by
  unfold Obligations.HpushAppendsOneByte
  intro s cin
  refine ⟨_, exec_hpush cin s, fun k l hl => ⟨l.pushed (s.cnt != 0) cin, by simp [hl], rfl,
    l.pushed_hash_toNat _ cin, fun h => ?_, fun h => ?_⟩, sat32_toNat _, windowUpdate_frame rfl⟩
  · have hgrown : (s.cnt != 0) = true := bne_iff_ne.2 fun h0 => h (word_eq_zero_iff.1 h0)
    rw [Lane.pushed_pow, if_pos hgrown, BitVec.toNat_mul]
  · simp [word_eq_zero_iff.2 h]

/-- Settles O35: the roll in each lane over the integers; the check of `CNT` decides between the answers. -/
theorem hrollSlidesTheWindow : Obligations.HrollSlidesTheWindow := by
  unfold Obligations.HrollSlidesTheWindow
  intro s cin cout
  rw [Ne, ← word_eq_zero_iff]
  exact ⟨fun h => ⟨_, exec_hroll_of_ne cin cout h, fun k l hl => ⟨l.rolled cin cout, by simp [hl], rfl, rfl,
    l.rolled_hash_toNat cin cout⟩, rfl, windowUpdate_frame rfl⟩,
    fun h => answersError_of_eq_raise (e := .empty) (exec_hroll_of_eq cin cout h)⟩

/-- Settles O36: `HCLR` leaves the empty window, each push appends its byte to the window, and no other allowed event
touches the engine. -/
theorem fromScratchLaw : Obligations.FromScratchLaw := by
  unfold Obligations.FromScratchLaw
  refine ⟨fun s b => ?_, fun s es hes => ⟨fun t ht => ?_, fun h => h.hostRun_completes _⟩⟩
  · obtain ⟨t, ht, hw⟩ := hostRun_hclr_pushes s b
    exact ⟨t, ht, hw.lanes, hw.cnt_toNat⟩
  · obtain ⟨v, hv, ht⟩ := hostRun_cons_eq_next.1 ht
    have hclr : exec .hclr s = .next v := acceptWord_some (decode_encode .hclr) s ▸ hv
    cases hclr
    have hw := ((HasWindow.cleared s).offer _).of_hostRun hes ht
    exact ⟨hw.lanes, hw.cnt_toNat⟩

/-- Settles O37: the rolling law in one lane, in every lane. -/
theorem rollingLaw : Obligations.RollingLaw := by
  unfold Obligations.RollingLaw
  intro s c a cin hcnt hl
  refine ⟨_, exec_hroll_of_ne cin c fun h => hcnt (word_eq_zero_iff.1 h), ?_, ?_, ?_, rfl⟩
  · rw [State.offer_lanes, State.windowRolled_lanes, List.forall_mem_map]
    exact fun l hmem => (hl l hmem).rolled cin
  · simp [Function.comp_def]
  · simp [Function.comp_def]

/-- Settles O38: both runs leave the window of `n` bytes at `i` in the same lanes, and that determines lanes and
`CNT`. -/
theorem scanEqualsFromScratch : Obligations.ScanEqualsFromScratch := by
  unfold Obligations.ScanEqualsFromScratch
  intro s d n i hn hi
  obtain ⟨v, hv, hpushed⟩ := hostRun_hclr_pushes s (d.take n)
  have hlen : (d.take n).length = n := List.length_take_of_le (by omega)
  obtain ⟨t, ht, hrolled⟩ := hpushed.hostRun_rolls (r := d.drop n) (i := i)
    (List.ne_nil_of_length_pos (by omega)) (by rw [List.length_drop]; omega)
  rw [List.take_append_drop] at ht hrolled
  rw [hlen] at hrolled
  obtain ⟨u, hu, hscratch⟩ := hostRun_hclr_pushes s ((d.drop i).take n)
  exact ⟨t, u, hostRun_sending_append hv ht, hu, hrolled.lanes.trans hscratch.lanes.symm,
    hrolled.cnt.trans hscratch.cnt.symm⟩

/-- Settles O40: the hash is the polynomial modulo `2^32`, and short windows of small bases stay below `2^32`. -/
theorem shortWindowsAreExact : Obligations.ShortWindowsAreExact := by
  unfold Obligations.ShortWindowsAreExact
  intro s b
  obtain ⟨t, ht, hw⟩ := hostRun_hclr_pushes s b
  refine ⟨t, ht, fun k l hl => ?_⟩
  have hmod : (l.window b).hash.toNat = poly l.base.toNat b % 2 ^ 32 := poly32_toNat l.base b
  have hexact (h : poly l.base.toNat b < 2 ^ 32) : (l.window b).hash.toNat = poly l.base.toNat b :=
    hmod.trans (Nat.mod_eq_of_lt h)
  exact ⟨l.window b, by simp [hw.lanes, hl], rfl, hexact,
    ⟨poly l.base.toNat b / 2 ^ 32, by rw [hmod, Nat.mod_add_div']⟩, fun hp hb => hexact (poly_lt_of_short hp hb)⟩

/-- Settles O41: both states apply to their lane `k` the one update that their common `CNT` determines. -/
theorem lanesAreIndependent : Obligations.LanesAreIndependent := by
  unfold Obligations.LanesAreIndependent
  intro s s' t t' i k hi hcnt hlane ht ht'
  obtain ⟨g, hg⟩ := exec_engine_lanes hi s.cnt
  rw [hg s t rfl ht, hg s' t' hcnt ht', List.getElem?_map, List.getElem?_map, hlane]

/-- Settles O33: the cleared lane is the empty window's, written out. -/
theorem hclrEmptiesTheWindow : Obligations.HclrEmptiesTheWindow := by
  unfold Obligations.HclrEmptiesTheWindow
  exact fun s => ⟨_, exec_hclr s, rfl, rfl, windowUpdate_frame rfl⟩

end Sys2Proof
end

section
/-! The filter family: the answers of `HSET`, `HTST` and `HLOC` (rules R75 to R78), and that a test of the lanes an
`HSET` used finds every bit set, whatever came between (rule R79). -/

namespace Sys2Proof.Machine

section

variable {s : State}

/-! ### The active positions (rules R17, R75) -/

theorem activePositions_byteIndex_lt (hs : Sized s) (h0 : s.bitCount ≠ 0) :
    ∀ p ∈ s.activePositions, p / 8 < s.byteLen.toNat :=
  fun _ hp => byteIndex_lt_of_sized hs (activePositions_lt h0 hp)

theorem all_activePositions_iff :
    (s.activePositions.all fun p => bitAt s p) = true ↔
      ∀ k p, k < s.nlanes.toNat → laneLoc s k = some p → bitAt s p = true := by
  simp only [List.all_eq_true, mem_activePositions]
  exact ⟨fun h k p hk hp => h p ⟨k, hk, hp⟩, fun h p ⟨k, hk, hp⟩ => h k p hk hp⟩

/-- A lane's position depends on its hash and `BITCOUNT` alone. -/
theorem laneLoc_congr {u : State} {k : Nat} (hc : u.bitCount = s.bitCount)
    (hh : u.lanes[k]?.map Lane.hash = s.lanes[k]?.map Lane.hash) : laneLoc u k = laneLoc s k := by
  have hloc (v : State) :
      laneLoc v k = (v.lanes[k]?.map Lane.hash).map fun x => x.toNat % v.bitCount.toNat := by
    simp [laneLoc, Function.comp_def]
  rw [hloc, hloc, hh, hc]

/-! ### The commands as equations (rules R76 to R78) -/

theorem exec_hset_of_ne (hs : Sized s) (h0 : s.bitCount ≠ 0) :
    ∃ u, setBits s s.activePositions = some u ∧ exec .hset s = respond 0 u := by
  obtain ⟨u, hu, -, -⟩ := setBits_spec s.activePositions s (activePositions_byteIndex_lt hs h0)
  refine ⟨u, hu, ?_⟩
  change execHset s = _
  rw [execHset, if_neg h0, hu, withByte_some]

theorem exec_htst_of_ne (hs : Sized s) (h0 : s.bitCount ≠ 0) :
    exec .htst s = respond (boolData (s.activePositions.all fun p => bitAt s p)) s := by
  change execHtst s = _
  rw [execHtst, if_neg h0, allBitsSet_spec _ s (activePositions_byteIndex_lt hs h0), withByte_some]

theorem exec_hloc_of_none {k : Byte} (hk : s.lanes[k.toNat]? = none) : exec (.hloc k) s = raise .range s := by
  change execHloc k s = _
  rw [execHloc, hk]

theorem exec_hloc_of_some {k : Byte} {l : Lane} (hk : s.lanes[k.toNat]? = some l) :
    exec (.hloc k) s =
      if s.bitCount = 0 then raise .zeroSize s else respond (reduced l.hash s.bitCount) s := by
  change execHloc k s = _
  rw [execHloc, hk]

/-! ### What `HSET` sets and leaves alone (rules R28, R76) -/

theorem bitAt_setBits {ps : List Nat} {u : State} (hu : setBits s ps = some u) (p : Nat) :
    bitAt u p = true ↔ bitAt s p = true ∨ p ∈ ps := by
  obtain ⟨hps, -⟩ := setBits_orRun ps s u hu
  obtain ⟨v, hv, -, hbit⟩ := setBits_spec ps s hps
  obtain rfl : v = u := Option.some.inj (hv.symm.trans hu)
  exact hbit p

theorem bitAt_setBits_activePositions {u : State} (hu : setBits s s.activePositions = some u) (p : Nat) :
    bitAt u p = true ↔ bitAt s p = true ∨ ∃ k, k < s.nlanes.toNat ∧ laneLoc s k = some p := by
  rw [bitAt_setBits hu, mem_activePositions]

theorem byteAt_setBits_activePositions {u : State} (hu : setBits s s.activePositions = some u) {a : Nat}
    (ha : ∀ k p, k < s.nlanes.toNat → laneLoc s k = some p → a ≠ p / 8) : byteAt u a = byteAt s a := by
  refine byteAt_setBits hu fun p hp => ?_
  obtain ⟨k, hk, hloc⟩ := mem_activePositions.1 hp
  exact ha k p hk hloc

/-- After ORs into the buffer and a response: the answer, and what the ORs leave alone. -/
theorem OrRun.offer_frame {u : State} (h : OrRun s u) (d : Word) :
    (u.offer (rspWord 0 d)).bitCount = s.bitCount ∧ (u.offer (rspWord 0 d)).byteLen = s.byteLen ∧
      AnswersOk s (u.offer (rspWord 0 d)) d.toNat ∧ SameEngine s (u.offer (rspWord 0 d)) ∧
      (u.offer (rspWord 0 d)).nlanes = s.nlanes ∧ SameSurroundings s (u.offer (rspWord 0 d)) := by
  rw [h.eq_buf]
  exact ⟨rfl, rfl, answersOk_offer s _ d rfl rfl, ⟨rfl, rfl⟩, rfl, rfl, rfl, rfl⟩

/-! ### `HSET` and a later `HTST` (rule R79) -/

theorem bitAt_of_exec_hset {t : State} {k p : Nat} (hs : Sized s) (h0 : s.bitCount ≠ 0)
    (ht : exec .hset s = .next t) (hk : k < s.nlanes.toNat) (hp : laneLoc s k = some p) : bitAt t p = true := by
  obtain ⟨u, hu, hx⟩ := exec_hset_of_ne hs h0
  cases hx.symm.trans ht
  exact (bitAt_setBits_activePositions hu p).2 (.inr ⟨k, hk, hp⟩)

theorem exec_htst_answersOne (hs : Sized s) (h0 : s.bitCount ≠ 0)
    (h : ∀ k p, k < s.nlanes.toNat → laneLoc s k = some p → bitAt s p = true) :
    ∃ t, exec .htst s = .next t ∧ AnswersOk s t 1 := by
  rw [exec_htst_of_ne hs h0, all_activePositions_iff.2 h]
  exact ⟨_, respond_eq 1 s, answersOk_offer s s 1 rfl rfl⟩

end

end Sys2Proof.Machine

namespace Sys2Proof

open Sys2Proof.Machine

/-- Settles O45: `HSET` sets the bits of its active positions, it and every event after it keep the vector's size and
every set bit, and the same hashes have the same positions in the same bit space. -/
theorem noFalseNegatives : Obligations.NoFalseNegatives := by
  unfold Obligations.NoFalseNegatives
  intro s t u es hs h0 ht hes hu hn hh
  rw [Ne, ← word_eq_zero_iff] at h0
  have hrun : BitsKept t u := hostRun_bitsKept hes hu
  have hkept : BitsKept s u := (exec_bitsKept ht rfl).trans hrun
  have hsized : Sized u := hkept.sized hs
  obtain ⟨hcount, -, -⟩ := hkept
  obtain ⟨-, -, hbit⟩ := hrun
  refine exec_htst_answersOne hsized (hcount ▸ h0) fun k p hk hp => ?_
  rw [hn] at hk
  rw [laneLoc_congr hcount (hh k hk)] at hp
  exact hbit p (bitAt_of_exec_hset hs h0 ht hk hp)

/-- Settles O42: the active positions of a sized vector lie in bytes that exist, so `HSET` is a run of ORs at them. -/
theorem hsetSetsTheActivePositions : Obligations.HsetSetsTheActivePositions := by
  unfold Obligations.HsetSetsTheActivePositions
  intro s hs
  rw [Ne, ← word_eq_zero_iff]
  refine ⟨fun h0 => ?_, fun h0 => answersError_of_eq_raise (e := .zeroSize) (if_pos h0)⟩
  obtain ⟨u, hu, hx⟩ := exec_hset_of_ne hs h0
  obtain ⟨-, hrun⟩ := setBits_orRun _ s u hu
  have hbit := bitAt_setBits_activePositions hu
  exact ⟨_, hx, hbit, fun _ ha => (byteAt_setBits_activePositions hu ha :), hrun.offer_frame 0⟩

/-- Settles O43: the active positions of a sized vector lie in bytes that exist, and the command only responds. -/
theorem htstAnswersTheConjunction : Obligations.HtstAnswersTheConjunction := by
  unfold Obligations.HtstAnswersTheConjunction
  intro s hs
  rw [Ne, ← word_eq_zero_iff]
  refine ⟨fun h0 => ?_, fun h0 => answersError_of_eq_raise (e := .zeroSize) (if_pos h0)⟩
  obtain ⟨t, ht, hok, hsame⟩ := answersOk_of_eq_respond (exec_htst_of_ne hs h0) (boolData_toNat _)
  refine ⟨t, _, ht, hok, hsame, ?_, ?_⟩
  · split <;> simp
  · rw [← all_activePositions_iff]
    split <;> simp [*]

/-- Settles O44: the lane is looked up before `BITCOUNT` is checked, and the command only responds. -/
theorem hlocAnswersTheReducedHash : Obligations.HlocAnswersTheReducedHash := by
  unfold Obligations.HlocAnswersTheReducedHash
  intro s k
  rw [Ne, ← word_eq_zero_iff]
  refine ⟨fun l hl h0 => ?_, fun hk => ?_, fun hk h0 => ?_⟩
  · exact answersOk_of_eq_respond ((exec_hloc_of_some hl).trans (if_neg h0)) (reduced_toNat _ _)
  · exact answersError_of_eq_raise (e := .range) (exec_hloc_of_none (List.getElem?_eq_none hk))
  · exact answersError_of_eq_raise (e := .zeroSize)
      ((exec_hloc_of_some (List.getElem?_eq_getElem hk)).trans (if_pos h0))

end Sys2Proof
end

section
/-! The system family: the numbers of rule R20's map are the numbers of the named registers that exist, which settles
what `CSRR` answers (rule R82), and what `CSRW` does to each of them (rules R83 to R85). -/

namespace Sys2Proof.Machine

/-! ### The map by names (rule R20) -/

/-- The decoder of CSR numbers inverts their numbering. -/
theorem csrOfNumber_eq_some {n : Byte} {c : Csr} : csrOfNumber n = some c ↔ c.number = some n.toNat := by
  cases c with
  | hbase k => simp [csrOfNumber_hbase, Csr.number, eq_comm (a := n.toNat)]
  | hpow k => simp [csrOfNumber_hpow, Csr.number, eq_comm (a := n.toNat)]
  | hash k => simp [csrOfNumber_hash, Csr.number, eq_comm (a := n.toNat)]
  | _ => revert n; decide

section

variable {s : State} {csr : Byte} {value v : Word} {k m : Nat}

/-- One of the map's three arrays: lane `k`'s register stands at number `k` of its group. -/
theorem mem_laneArray {b : Nat} {f : Lane → Word} :
    (m, v) ∈ s.lanes.mapIdx (fun k l => (b + k, f l)) ↔ ∃ k, b + k = m ∧ s.lanes[k]?.map f = some v := by
  simp only [List.mem_mapIdx, Prod.mk.injEq, Option.map_eq_some_iff, List.getElem?_eq_some_iff]
  constructor
  · rintro ⟨k, hk, hm, hv⟩
    exact ⟨k, hm, _, ⟨hk, rfl⟩, hv⟩
  · rintro ⟨k, hm, _, ⟨hk, rfl⟩, hv⟩
    exact ⟨k, hk, hm, hv⟩

theorem lane_lt_of_map_eq_some {f : Lane → Word} (h : s.lanes[k]?.map f = some v) : k < s.lanes.length := by
  obtain ⟨l, hl, -⟩ := Option.map_eq_some_iff.1 h
  exact (List.getElem?_eq_some_iff.1 hl).1

/-- The map lists the number and the value of every register that exists, and nothing else. -/
theorem mem_csrMap (hs : s.lanes.length ≤ 16) :
    (m, v) ∈ csrMap s ↔ ∃ c, Csr.number c = some m ∧ csrValue s c = some v := by
  have hlt {f : Lane → Word} {k : Nat} (h : s.lanes[k]?.map f = some v) : k < 16 :=
    (lane_lt_of_map_eq_some h).trans_le hs
  simp only [csrMap, List.mem_append, mem_laneArray]
  constructor
  · rintro (((h | ⟨k, rfl, h⟩) | ⟨k, rfl, h⟩) | ⟨k, rfl, h⟩)
    · simp only [List.mem_cons, Prod.mk.injEq, List.not_mem_nil, or_false] at h
      obtain ⟨rfl, rfl⟩ | ⟨rfl, rfl⟩ | ⟨rfl, rfl⟩ | ⟨rfl, rfl⟩ | ⟨rfl, rfl⟩ | ⟨rfl, rfl⟩ | ⟨rfl, rfl⟩ | ⟨rfl, rfl⟩ := h
      exacts [⟨.id, rfl, rfl⟩, ⟨.cap, rfl, rfl⟩, ⟨.bitCount, rfl, rfl⟩, ⟨.byteLen, rfl, rfl⟩, ⟨.nlanes, rfl, rfl⟩,
        ⟨.cnt, rfl, rfl⟩, ⟨.err, rfl, rfl⟩, ⟨.lanesMax, rfl, rfl⟩]
    · exact ⟨.hbase k, if_pos (hlt h), h⟩
    · exact ⟨.hpow k, if_pos (hlt h), h⟩
    · exact ⟨.hash k, if_pos (hlt h), h⟩
  · rintro ⟨c, hm, hv⟩
    cases c with
    | hbase k => exact .inl (.inl (.inr ⟨k, Option.some.inj ((if_pos (hlt hv)).symm.trans hm), hv⟩))
    | hpow k => exact .inl (.inr ⟨k, Option.some.inj ((if_pos (hlt hv)).symm.trans hm), hv⟩)
    | hash k => exact .inr ⟨k, Option.some.inj ((if_pos (hlt hv)).symm.trans hm), hv⟩
    | _ =>
      cases hm
      cases hv
      exact .inl (.inl (.inl (by simp [Config.idValue, State.lanesMax])))

theorem csrRead_eq_some (hs : s.lanes.length ≤ 16) : csrRead s csr = some v ↔ (csr.toNat, v) ∈ csrMap s := by
  simp only [mem_csrMap hs, csrRead, Option.bind_eq_some_iff, csrOfNumber_eq_some]

/-! ### The commands as equations (rules R82 to R85) -/

theorem exec_csrr_of_some (h : csrRead s csr = some v) : exec (.csrr csr) s = respond v s := by
  change execCsrr csr s = _
  rw [execCsrr, h]

theorem exec_csrr_of_none (h : csrRead s csr = none) : exec (.csrr csr) s = raise .csr s := by
  change execCsrr csr s = _
  rw [execCsrr, h]

theorem exec_csrw_of_some {c : Csr} (h : csrOfNumber csr = some c) :
    exec (.csrw csr value) s = csrWrite value s c := by
  change execCsrw csr value s = _
  rw [execCsrw, h]

theorem exec_csrw_of_none (h : csrOfNumber csr = none) : exec (.csrw csr value) s = raise .csr s := by
  change execCsrw csr value s = _
  rw [execCsrw, h]

theorem exec_csrw_nlanes :
    exec (.csrw 0x04 value) s =
      if value.toNat < 1 ∨ s.lanes.length < value.toNat then raise .value s else respond 0 { s with nlanes := value } :=
  exec_csrw_of_some (csrOfNumber_nlanes.2 rfl)

theorem exec_csrw_hbase (hk : k < s.lanes.length) (hcsr : csrOfNumber csr = some (.hbase k)) :
    exec (.csrw csr value) s = respond 0 (s.baseInstalled k value) :=
  (exec_csrw_of_some hcsr).trans (if_pos hk)

/-- Every register but `NLANES` and the bases of existing lanes refuses a write (rule R83). -/
theorem csrWrite_eq_raise {c : Csr} (hn : c ≠ .nlanes) (hb : ∀ k, c = .hbase k → s.lanes.length ≤ k) :
    csrWrite value s c = raise .csr s := by
  cases c with
  | nlanes => exact absurd rfl hn
  | hbase k => exact if_neg (Nat.not_lt.2 (hb k rfl))
  | _ => rfl

/-! ### What installing a base does to the lanes (rule R85) -/

theorem baseInstalled_getElem? {l : Lane} {j : Nat} (hl : s.lanes[j]? = some l) :
    (s.baseInstalled k value).lanes[j]? = some ⟨if j = k then value else l.base, 0, 1⟩ := by
  by_cases hjk : k = j
  · simp [hl, hjk, Lane.cleared]
  · simp [hl, hjk, Ne.symm hjk, Lane.cleared]

end

end Sys2Proof.Machine

namespace Sys2Proof

open Sys2Proof.Machine

/-- Settles O46: the numbers `CSRR` can read, with their values, are the map's. -/
theorem csrrReadsTheMap : Obligations.CsrrReadsTheMap := by
  unfold Obligations.CsrrReadsTheMap
  intro s csr hs
  simp only [← csrRead_eq_some hs]
  exact ⟨fun v h => answersOk_of_eq_respond (exec_csrr_of_some h) rfl,
    fun h => answersError_of_eq_raise (e := .csr) (exec_csrr_of_none (Option.eq_none_iff_forall_ne_some.2 h))⟩

/-- Settles O48: a lane of index below 16 has a number of its own, and the base is installed in the lanes one by
one. -/
theorem csrwHbaseInstallsTheBase : Obligations.CsrwHbaseInstallsTheBase := by
  unfold Obligations.CsrwHbaseInstallsTheBase
  intro s k value hk hk16
  have hcsr : csrOfNumber (BitVec.ofNat 8 (0x10 + k)) = some (.hbase k) :=
    csrOfNumber_hbase.2 ⟨hk16, Nat.mod_eq_of_lt (by omega)⟩
  refine ⟨_, exec_csrw_hbase hk hcsr, fun j hj => ?_, rfl, ⟨rfl, rfl, fun _ => rfl⟩, rfl,
    answersOk_offer s _ 0 rfl rfl, rfl, by simp, rfl⟩
  have hl : s.lanes[j]? = some s.lanes[j] := List.getElem?_eq_getElem hj
  exact ⟨_, _, hl, baseInstalled_getElem? hl, rfl, rfl, rfl⟩

/-- Settles O49: the number names no register, or one that refuses the write. -/
theorem csrwRefusesEveryOtherNumber : Obligations.CsrwRefusesEveryOtherNumber := by
  unfold Obligations.CsrwRefusesEveryOtherNumber
  intro s csr value hn hb
  refine answersError_of_eq_raise (e := .csr) ?_
  cases hc : csrOfNumber csr with
  | none => exact exec_csrw_of_none hc
  | some c =>
    refine (exec_csrw_of_some hc).trans (csrWrite_eq_raise ?_ ?_)
    · rintro rfl
      exact hn (csrOfNumber_nlanes.1 hc)
    · rintro k rfl
      obtain ⟨hk, hcsr⟩ := csrOfNumber_hbase.1 hc
      exact Nat.le_of_not_lt fun hlt => hb k hlt hk hcsr

/-- Settles O47: the check of the value decides between the answers. -/
theorem csrwNlanesSetsTheListLength : Obligations.CsrwNlanesSetsTheListLength := by
  unfold Obligations.CsrwNlanesSetsTheListLength
  intro s value
  refine ⟨fun hlow hhigh => ?_, fun h => answersError_of_eq_raise (e := .value) (exec_csrw_nlanes.trans (if_pos h))⟩
  exact ⟨_, exec_csrw_nlanes.trans (if_neg (by omega)), rfl, answersOk_offer s _ 0 rfl rfl⟩

end Sys2Proof
end

section
/-! The host-sequence family (spec/44_host_sequences.md): each reference sequence completes with OK answers from a
state with the invariant, with the result the rules give it (rules R91 to R96). -/

namespace Sys2Proof.Machine

/-! ### Issuing commands (rules R45, R88) -/

theorem rspStatus_rspWord (st : Byte) (d : Word) : rspStatus (rspWord st d) = st := by
  apply BitVec.eq_of_toNat_eq
  rw [rspStatus, BitVec.extractLsb'_toNat, rspWord_toNat, Nat.shiftRight_eq_div_pow]
  have := st.isLt
  have := d.isLt
  omega

theorem rspData_rspWord (st : Byte) (d : Word) : rspData (rspWord st d) = d := by
  apply BitVec.eq_of_toNat_eq
  rw [rspData, BitVec.extractLsb'_toNat, rspWord_toNat, Nat.shiftRight_zero]
  have := d.isLt
  omega

theorem okAnswer_offer (s : State) (d : Word) : okAnswer (s.offer (rspWord 0 d)) = some d := by
  simp [okAnswer, rspStatus_rspWord, rspData_rspWord]

section

variable {i : Instr} {s u : State} {d : Word}

/-- A command that responds is answered OK; every command of a sequence is issued by this rule. -/
theorem issue_of_exec (h : exec i s = respond d u) : issue i s = some (d, u.offer (rspWord 0 d)) := by
  have hstep : step (s.withEvent (.command (encode i))) = .next (u.offer (rspWord 0 d)) := by
    rw [step_withEvent, ← respond_eq, ← h]
    exact acceptWord_some (decode_encode i) s
  simp only [issue, hstep, okAnswer_offer, Option.map_some]

theorem issueAll_cons_of_exec (h : exec i s = respond d u) (is : List Instr) :
    issueAll (i :: is) s = issueAll is (u.offer (rspWord 0 d)) := by
  rw [issueAll, issue_of_exec h, Option.bind_some]

end

theorem issueAll_append (is js : List Instr) (s : State) :
    issueAll (is ++ js) s = (issueAll is s).bind (issueAll js) := by
  induction is generalizing s with
  | nil => rfl
  | cons i is ih => simp [issueAll, ih, Option.bind_assoc]

/-! ### The vector under answers -/

@[simp] theorem byteAt_offer (s : State) (r : RspWord) (a : Nat) : byteAt (s.offer r) a = byteAt s a := rfl

section

variable {s t : State}

theorem SameVector.bitAt_eq (h : SameVector s t) (p : Nat) : bitAt t p = bitAt s p := by
  obtain ⟨-, -, hbytes⟩ := h
  rw [bitAt, hbytes, bitAt]

theorem SameVector.bitsKept (h : SameVector s t) : BitsKept s t := by
  have hbit := h.bitAt_eq
  obtain ⟨hcount, hlen, -⟩ := h
  exact ⟨hcount, hlen, fun p hp => (hbit p).trans hp⟩

end

/-! ### The host's hash of a byte sequence (rules R70, R75, R94) -/

/-- The positions that the byte sequence `b` has in the filter of `s`: `poly32` of the bytes with each active base,
reduced modulo the bit count. -/
def hashPositions (s : State) (b : List Byte) : List Nat :=
  ((s.lanes.map Lane.base).take s.nlanes.toNat).map fun p => (poly32 p b).toNat % s.bitCount.toNat

/-- Whether the filter of `s` has the bit of every position of `b`. -/
def testsPositive (s : State) (b : List Byte) : Bool := (hashPositions s b).all fun p => bitAt s p

/-- `t` is `s` with the window `b` in its lanes, the vector and the active lanes kept. -/
structure Hashed (s : State) (b : List Byte) (t : State) : Prop where
  window : HasWindow s.lanes b t
  nlanes : t.nlanes = s.nlanes
  vector : SameVector s t

section

variable {s t : State} {b : List Byte}

theorem Hashed.cleared (s : State) : Hashed s [] s.windowCleared := ⟨.cleared s, rfl, rfl, rfl, fun _ => rfl⟩

theorem Hashed.pushed (h : Hashed s b t) (c : Byte) : Hashed s (b ++ [c]) (t.windowPushed c) :=
  ⟨h.window.pushed c, h.nlanes, h.vector⟩

theorem Hashed.rolled {c : Byte} {a : List Byte} (h : Hashed s (c :: a) t) (cin : Byte) :
    Hashed s (a ++ [cin]) (t.windowRolled cin c) :=
  ⟨h.window.rolled cin, h.nlanes, h.vector⟩

theorem Hashed.offer (h : Hashed s b t) (r : RspWord) : Hashed s b (t.offer r) :=
  ⟨h.window.offer r, h.nlanes, h.vector⟩

theorem Hashed.issueAll_pushes (h : Hashed s b t) (cs : List Byte) :
    ∃ u, issueAll (cs.map .hpush) t = some u ∧ Hashed s (b ++ cs) u := by
  induction cs generalizing b t with
  | nil => exact ⟨t, rfl, by rwa [List.append_nil]⟩
  | cons c cs ih =>
    obtain ⟨u, hu, hw⟩ := ih ((h.pushed c).offer (rspWord 0 0))
    exact ⟨u, (issueAll_cons_of_exec (exec_hpush c t) _).trans hu, by simpa using hw⟩

theorem issueAll_hashCommands (s : State) (b : List Byte) :
    ∃ t, issueAll (hashCommands b) s = some t ∧ Hashed s b t := by
  obtain ⟨t, ht, hw⟩ := ((Hashed.cleared s).offer (rspWord 0 0)).issueAll_pushes b
  exact ⟨t, (issueAll_cons_of_exec (exec_hclr s) _).trans ht, hw⟩

theorem Hashed.activePositions_eq (h : Hashed s b t) : t.activePositions = hashPositions s b := by
  obtain ⟨hcount, -, -⟩ := h.vector
  simp [State.activePositions, lanePositions, hashPositions, reduced_toNat, h.window.lanes, h.nlanes, hcount,
    Lane.window, ← List.map_take, Function.comp_def]

theorem Hashed.bitCount_ne_zero (h : Hashed s b t) (h0 : s.bitCount ≠ 0) : t.bitCount ≠ 0 := by
  obtain ⟨hcount, -, -⟩ := h.vector
  rwa [hcount]

theorem Hashed.sized (h : Hashed s b t) (hs : Sized s) : Sized t := h.vector.bitsKept.sized hs

/-! ### The query (rule R95) -/

/-- `HTST` finds at its active positions the bits `s` has at those of the window. -/
theorem Hashed.queryLanes_spec (h : Hashed s b t) (hs : Sized s) (h0 : s.bitCount ≠ 0) :
    ∃ u, queryLanes t = some (testsPositive s b, u) ∧ Hashed s b u := by
  refine ⟨_, ?_, h.offer (rspWord 0 (boolData (testsPositive s b)))⟩
  have hexec := exec_htst_of_ne (h.sized hs) (h.bitCount_ne_zero h0)
  rw [h.activePositions_eq, funext h.vector.bitAt_eq, ← testsPositive] at hexec
  rw [queryLanes, issue_of_exec hexec]
  cases testsPositive s b <;> rfl

theorem filterExists_spec (hs : Sized s) (h0 : s.bitCount ≠ 0) (b : List Byte) :
    ∃ t, filterExists b s = some (testsPositive s b, t) ∧ Hashed s b t := by
  obtain ⟨t, ht, hw⟩ := issueAll_hashCommands s b
  obtain ⟨u, hu, hw'⟩ := hw.queryLanes_spec hs h0
  exact ⟨u, by rw [filterExists, ht, Option.bind_some, hu], hw'⟩

theorem filterExists_true_iff (hs : Sized s) (h0 : s.bitCount ≠ 0) (b : List Byte) :
    (∃ t, filterExists b s = some (true, t)) ↔ testsPositive s b = true := by
  obtain ⟨t, ht, -⟩ := filterExists_spec hs h0 b
  simp [ht]

end

/-! ### Additions (rules R95, R98) -/

/-- What additions do to a filter: the vector's bits only rise, and the bases and their number stay. -/
structure Grown (s t : State) : Prop where
  bits : BitsKept s t
  nlanes : t.nlanes = s.nlanes
  bases : t.lanes.map Lane.base = s.lanes.map Lane.base

section

variable {s t u : State} {b : List Byte}

theorem Grown.refl (s : State) : Grown s s := ⟨.refl s, rfl, rfl⟩

theorem Grown.trans (h : Grown s t) (h' : Grown t u) : Grown s u :=
  ⟨h.bits.trans h'.bits, h'.nlanes.trans h.nlanes, h'.bases.trans h.bases⟩

theorem Grown.offer (h : Grown s t) (r : RspWord) : Grown s (t.offer r) := ⟨h.bits, h.nlanes, h.bases⟩

theorem Grown.hashPositions_eq (h : Grown s t) (b : List Byte) : hashPositions t b = hashPositions s b := by
  obtain ⟨hcount, -, -⟩ := h.bits
  rw [hashPositions, h.bases, h.nlanes, hcount, hashPositions]

theorem Grown.bitCount_ne_zero (h : Grown s t) (h0 : s.bitCount ≠ 0) : t.bitCount ≠ 0 := by
  obtain ⟨hcount, -, -⟩ := h.bits
  rwa [hcount]

/-- No false negative: what tests positive goes on testing positive. -/
theorem Grown.testsPositive_kept (h : Grown s t) (hb : testsPositive s b = true) : testsPositive t b = true := by
  obtain ⟨-, -, hbit⟩ := h.bits
  rw [testsPositive, List.all_eq_true] at hb ⊢
  rw [h.hashPositions_eq b]
  exact fun p hp => hbit p (hb p hp)

theorem Hashed.grown (h : Hashed s b t) : Grown s t :=
  ⟨h.vector.bitsKept, h.nlanes, by simp [h.window.lanes, Lane.window, Function.comp_def]⟩

theorem OrRun.grown (h : OrRun s t) : Grown s t := by
  refine ⟨⟨?_, ?_, h.bit_kept⟩, ?_, ?_⟩ <;> rw [h.eq_buf]

theorem filterAdd_eq (b : List Byte) (s : State) :
    filterAdd b s = (issueAll (hashCommands b) s).bind (issueAll [.hset]) :=
  issueAll_append (hashCommands b) [.hset] s

/-- An addition grows the filter, and its sequence tests positive. -/
theorem filterAdd_grows (hs : Sized s) (h0 : s.bitCount ≠ 0) (b : List Byte) :
    ∃ t, filterAdd b s = some t ∧ Grown s t ∧ testsPositive t b = true := by
  obtain ⟨v, hv, hw⟩ := issueAll_hashCommands s b
  obtain ⟨u, hset, hexec⟩ := exec_hset_of_ne (hw.sized hs) (hw.bitCount_ne_zero h0)
  obtain ⟨-, hrun⟩ := setBits_orRun _ _ _ hset
  have hgrown : Grown s (u.offer (rspWord 0 0)) := (hw.grown.trans hrun.grown).offer _
  refine ⟨_, by rw [filterAdd_eq, hv, Option.bind_some, issueAll_cons_of_exec hexec, issueAll], hgrown, ?_⟩
  rw [testsPositive, hgrown.hashPositions_eq, List.all_eq_true]
  rw [hw.activePositions_eq] at hset
  exact fun p hp => (bitAt_setBits hset p).2 (.inr hp)

theorem filterAdds_grow (hs : Sized s) (h0 : s.bitCount ≠ 0) (more : List (List Byte)) :
    ∃ t, more.foldlM (fun x m => filterAdd m x) s = some t ∧ Grown s t := by
  induction more generalizing s with
  | nil => exact ⟨s, rfl, .refl s⟩
  | cons m more ih =>
    obtain ⟨v, hv, hgrown, -⟩ := filterAdd_grows hs h0 m
    obtain ⟨t, ht, hgrown'⟩ := ih (hgrown.bits.sized hs) (hgrown.bitCount_ne_zero h0)
    exact ⟨t, by simpa [hv] using ht, hgrown.trans hgrown'⟩

end

/-! ### The scan (rule R96) -/

/-- A query and, where it answers false, the scan of the windows after it. -/
def queryThenScan (ps : List (Byte × Byte)) (s : State) : Option (Bool × State) :=
  (queryLanes s).bind fun q => if q.1 then some (true, q.2) else scanWindows ps q.2

theorem scanWindows_cons (p : Byte × Byte) (ps : List (Byte × Byte)) (s : State) :
    scanWindows (p :: ps) s = (issue (.hroll p.1 p.2) s).bind fun r => queryThenScan ps r.2 := rfl

theorem substringExists_of_le {d : List Byte} {n : Nat} (hn : 1 ≤ n) (hd : n ≤ d.length) (s : State) :
    substringExists d n s = (issueAll (hashCommands (d.take n)) s).bind (queryThenScan ((d.drop n).zip d)) := by
  rw [substringExists, if_neg (Nat.not_lt.2 hd), if_neg (Nat.ne_of_gt hn), filterExists, Option.bind_assoc]
  rfl

section

variable {s t : State}

/-- From the window `b` on, the scan over the bytes `r` that follow it queries the windows of `b`'s length in turn. -/
theorem Hashed.queryThenScan_spec {b : List Byte} (h : Hashed s b t) (hs : Sized s) (h0 : s.bitCount ≠ 0)
    (hb : b ≠ []) (r : List Byte) :
    ∃ ans u, queryThenScan (r.zip (b ++ r)) t = some (ans, u) ∧ SameVector s u ∧
      (ans = true ↔ ∃ i < r.length + 1, testsPositive s (((b ++ r).drop i).take b.length) = true) := by
  induction r generalizing b t with
  | nil =>
    obtain ⟨u, hu, hw⟩ := h.queryLanes_spec hs h0
    refine ⟨testsPositive s b, u, ?_, hw.vector, by simp⟩
    rw [queryThenScan, hu, Option.bind_some]
    cases testsPositive s b <;> rfl
  | cons cin r ih =>
    obtain ⟨u, hu, hw⟩ := h.queryLanes_spec hs h0
    have hfirst : ((b ++ cin :: r).drop 0).take b.length = b := by simp
    rw [queryThenScan, hu, Option.bind_some]
    simp only [List.length_cons, Nat.exists_lt_succ_left (n := r.length + 1), hfirst]
    cases hpos : testsPositive s b with
    | true => exact ⟨true, u, rfl, hw.vector, by simp⟩
    | false =>
      obtain ⟨c, a, rfl⟩ := List.exists_cons_of_ne_nil hb
      have hcnt : u.cnt ≠ 0 := hw.window.cnt ▸ sat32_length_ne_zero.2 hb
      obtain ⟨ans, v, hv, hvec, hans⟩ := ih ((hw.rolled cin).offer (rspWord 0 0)) (by simp)
      rw [List.append_assoc, List.singleton_append] at hv hans
      refine ⟨ans, v, ?_, hvec, by simpa using hans⟩
      rw [if_neg Bool.false_ne_true, List.cons_append, List.zip_cons_cons, scanWindows_cons,
        issue_of_exec (exec_hroll_of_ne cin c hcnt), Option.bind_some, hv]

end

/-! ### Sequences that only read (rules R92, R94) -/

/-- `s` with OK responses of these data offered behind the others. -/
def State.answered (s : State) (ds : List Word) : State := { s with rsps := s.rsps ++ ds.map (rspWord 0) }

theorem State.answered_nil (s : State) : s.answered [] = s := by simp [State.answered]

theorem State.offer_answered (s : State) (d : Word) (ds : List Word) :
    (s.offer (rspWord 0 d)).answered ds = s.answered (d :: ds) := by
  simp [State.answered, State.offer]

theorem Inv.answered {s : State} (h : Inv s) (ds : List Word) : Inv (s.answered ds) := by
  induction ds generalizing s with
  | nil => rwa [State.answered_nil]
  | cons d ds ih => exact s.offer_answered d ds ▸ ih (h.offer d)

/-- The reduced hashes of the lanes `k .. k+n-1`. -/
def State.locations (s : State) (k n : Nat) : List Word :=
  ((s.lanes.drop k).take n).map fun l => reduced l.hash s.bitCount

section

variable {s : State}

theorem State.locations_succ {k : Nat} (h : k < s.lanes.length) (n : Nat) :
    s.locations k (n + 1) = reduced s.lanes[k].hash s.bitCount :: s.locations (k + 1) n := by
  rw [State.locations, List.drop_eq_getElem_cons h, List.take_succ_cons, List.map_cons, State.locations]

theorem State.locations_activePositions (s : State) :
    (s.locations 0 s.nlanes.toNat).map BitVec.toNat = s.activePositions := List.map_map

theorem readLocations_succ_of_exec {k : Nat} {d : Word} (h : exec (.hloc (BitVec.ofNat 8 k)) s = respond d s) (n : Nat) :
    readLocations k (n + 1) s =
      (readLocations (k + 1) n (s.offer (rspWord 0 d))).map fun q => (d :: q.1, q.2) := by
  rw [readLocations, issue_of_exec h]
  rfl

/-- Each of the lanes has a number below 16, so within `HLOC`'s operand. -/
theorem readLocations_eq (h0 : s.bitCount ≠ 0) (hl : s.lanes.length ≤ 16) {k n : Nat} (hk : k + n ≤ s.lanes.length) :
    readLocations k n s = some (s.locations k n, s.answered (s.locations k n)) := by
  induction n generalizing k s with
  | zero => simp [readLocations, State.locations, State.answered_nil]
  | succ n ih =>
    have hlt : k < s.lanes.length := by omega
    have hlane : s.lanes[(BitVec.ofNat 8 k).toNat]? = some s.lanes[k] := by
      rw [BitVec.toNat_ofNat, Nat.mod_eq_of_lt (by omega), List.getElem?_eq_getElem hlt]
    have hexec := (exec_hloc_of_some hlane).trans (if_neg h0)
    have hrest (r : RspWord) := ih (s := s.offer r) h0 hl (k := k + 1) (by rw [State.offer_lanes]; omega)
    rw [readLocations_succ_of_exec hexec, hrest, Option.map_some, State.offer_answered, State.locations_succ hlt]
    rfl

theorem lowByte_zext32 (c : Byte) : lowByte (zext32 c) = c := lowByte_zext c

theorem readBytes_succ_of_exec {a : Nat} {d : Word} (h : exec (.bvrdb (BitVec.ofNat 32 a)) s = respond d s) (n : Nat) :
    readBytes a (n + 1) s =
      (readBytes (a + 1) n (s.offer (rspWord 0 d))).map fun q => (lowByte d :: q.1, q.2) := by
  rw [readBytes, issue_of_exec h]
  rfl

/-- Each address is below `BYTELEN`, so within `BVRDB`'s operand. -/
theorem readBytes_eq {a n : Nat} (h : a + n ≤ s.byteLen.toNat) :
    readBytes a n s = some ((List.range' a n).map (byteAt s),
      s.answered ((List.range' a n).map fun b => zext32 (byteAt s b))) := by
  induction n generalizing a s with
  | zero => simp [readBytes, State.answered_nil]
  | succ n ih =>
    have haddr : (BitVec.ofNat 32 a).toNat = a := Nat.mod_eq_of_lt (by have := s.byteLen.isLt; omega)
    have hexec := exec_bvrdb_of_lt (s := s) (addr := BitVec.ofNat 32 a) (by omega)
    have hrest (r : RspWord) := ih (s := s.offer r) (a := a + 1) (by rw [State.offer_byteLen]; omega)
    rw [haddr] at hexec
    rw [readBytes_succ_of_exec hexec, hrest, Option.map_some, State.offer_answered, lowByte_zext32, List.range'_succ]
    rfl

/-- `toJSON` answers the bytes of the buffer and leaves nothing new but its responses. -/
theorem toJSON_eq (s : State) :
    toJSON s = some ((List.range s.byteLen.toNat).map (byteAt s),
      s.answered (s.byteLen :: (List.range s.byteLen.toNat).map fun b => zext32 (byteAt s b))) := by
  have hbytes (r : RspWord) := readBytes_eq (s := s.offer r) (a := 0) (n := s.byteLen.toNat) (by simp)
  rw [toJSON, issue_of_exec (exec_csrr_of_some (csr := 0x03) (v := s.byteLen) rfl), Option.bind_some, hbytes,
    State.offer_answered, List.range_eq_range']
  rfl

/-- `getLocations` answers the positions of the bytes. -/
theorem getLocations_spec (h : Inv s) (h0 : s.bitCount ≠ 0) (b : List Byte) :
    ∃ locs t, getLocations b s = some (locs, t) ∧ SameVector s t ∧ locs.map BitVec.toNat = hashPositions s b := by
  obtain ⟨t, ht, hw⟩ := issueAll_hashCommands s b
  have hlen : t.lanes.length = s.lanes.length := by rw [hw.window.lanes, List.length_map]
  have hread (r : RspWord) := readLocations_eq (s := t.offer r) (k := 0) (n := t.nlanes.toNat)
    (hw.bitCount_ne_zero h0) (hlen.trans_le h.params.lanesHigh)
    (by rw [State.offer_lanes, hlen, hw.nlanes, Nat.zero_add]; exact h.nlanesHigh)
  have hget : getLocations b s = readLocations 0 t.nlanes.toNat (t.offer (rspWord 0 t.nlanes)) := by
    rw [getLocations, ht, Option.bind_some, issue_of_exec (exec_csrr_of_some (csr := 0x04) (v := t.nlanes) rfl)]
    rfl
  exact ⟨_, _, hget.trans (hread _), hw.vector, t.locations_activePositions.trans hw.activePositions_eq⟩

end

/-! ### Loading the bases (rule R93) -/

theorem csrOfNumber_laneCsr_hbase {k : Nat} (hk : k < 16) :
    csrOfNumber (laneCsr 0x10 (Fin.ofNat 16 k)) = some (.hbase k) := by
  have hval : (Fin.ofNat 16 k).val = k := Nat.mod_eq_of_lt hk
  refine csrOfNumber_hbase.2 ⟨hk, ?_⟩
  rw [laneCsr, hval, BitVec.toNat_add, BitVec.toNat_ofNat, show BitVec.toNat (0x10 : Byte) = 0x10 from rfl]
  omega

theorem baseInstalled_bases {s : State} {k : Nat} (hk : k < s.lanes.length) (p : Word) :
    (s.baseInstalled k p).lanes.map Lane.base = (s.lanes.map Lane.base).set k p := by
  rw [State.baseInstalled_lanes, List.modify_eq_set_get _ hk]
  simp [List.map_set, Function.comp_def]

theorem take_succ_set {α : Type} {l : List α} {k : Nat} (hk : k < l.length) (x : α) :
    (l.set k x).take (k + 1) = l.take k ++ [x] := by
  rw [List.take_succ_eq_append_getElem (by rwa [List.length_set]), List.getElem_set_self,
    List.take_set_of_le (Nat.le_refl k)]

/-- The list is installed from lane `k` on; the lanes before it keep their bases. -/
theorem issueAll_baseCommands (ps : List Word) {k : Nat} {s : State} (hk : k + ps.length ≤ s.lanes.length)
    (hl : s.lanes.length ≤ 16) :
    ∃ t, issueAll (baseCommands k ps) s = some t ∧ SameParams s t ∧ t.nlanes = s.nlanes ∧
      (t.lanes.map Lane.base).take (k + ps.length) = (s.lanes.map Lane.base).take k ++ ps := by
  induction ps generalizing k s with
  | nil => exact ⟨s, rfl, ⟨rfl, rfl⟩, rfl, by simp⟩
  | cons p ps ih =>
    rw [List.length_cons] at hk ⊢
    have hexec : exec (.csrw (laneCsr 0x10 (Fin.ofNat 16 k)) p) s = respond 0 (s.baseInstalled k p) :=
      exec_csrw_hbase (by omega) (csrOfNumber_laneCsr_hbase (by omega))
    have hlen : (s.baseInstalled k p).lanes.length = s.lanes.length := by simp
    obtain ⟨t, ht, ⟨hcap, hlanes⟩, hn, hbases⟩ := ih (k := k + 1) (s := (s.baseInstalled k p).offer (rspWord 0 0))
      (by rw [State.offer_lanes, hlen]; omega) (hlen.trans_le hl)
    refine ⟨t, (issueAll_cons_of_exec hexec _).trans ht, ⟨hcap, hlanes.trans hlen⟩, hn, ?_⟩
    rw [State.offer_lanes, baseInstalled_bases (by omega), take_succ_set (by rw [List.length_map]; omega)] at hbases
    rw [Nat.add_comm ps.length, ← Nat.add_assoc, hbases, List.append_assoc, List.singleton_append]

/-- A list that fits the engine is loaded whole, and its length becomes `NLANES`. -/
theorem setLanes_spec {s : State} {primes : List Word} (hlow : 1 ≤ primes.length)
    (hhigh : primes.length ≤ s.lanes.length) (hl : s.lanes.length ≤ 16) :
    ∃ t, setLanes primes s = some t ∧ t.capBytes = s.capBytes ∧ t.nlanes.toNat = primes.length ∧
      (t.lanes.take primes.length).map Lane.base = primes := by
  have hm : (BitVec.ofNat 32 primes.length).toNat = primes.length := Nat.mod_eq_of_lt (by omega)
  obtain ⟨t, ht, ⟨hcap, -⟩, hn, hbases⟩ := issueAll_baseCommands primes (k := 0)
    (s := State.offer { s with nlanes := BitVec.ofNat 32 primes.length } (rspWord 0 0)) (by simpa using hhigh) hl
  refine ⟨t, ?_, hcap, hn ▸ hm, by simpa [List.map_take] using hbases⟩
  rw [setLanes, if_pos (show primes.length ≤ Config.lanesLimit from hhigh.trans hl), laneCommands,
    issueAll_cons_of_exec (exec_csrw_nlanes.trans (if_neg (by omega))), ht]

/-! ### Loading the buffer (rule R91) -/

/-- `BVORB` of the bytes `bs` from address `a` on: each is ORed into its byte, and the registers stay. -/
theorem issueAll_loadCommands (bs : List Byte) {a : Nat} {s : State} (h : a + bs.length ≤ s.byteLen.toNat) :
    ∃ t, issueAll (loadCommands a bs) s = some t ∧ t = { s with buf := t.buf, rsps := t.rsps } ∧
      ∀ j, byteAt t j = byteAt s j ||| if a ≤ j then bs.getD (j - a) 0 else 0 := by
  induction bs generalizing a s with
  | nil => exact ⟨s, rfl, rfl, by simp⟩
  | cons b bs ih =>
    rw [List.length_cons] at h
    have haddr : (BitVec.ofNat 32 a).toNat = a := Nat.mod_eq_of_lt (by have := s.byteLen.isLt; omega)
    have hexec := exec_bvorb_of_lt (s := s) (addr := BitVec.ofNat 32 a) b (by omega)
    rw [haddr] at hexec
    obtain ⟨t, ht, hregs, hbytes⟩ := ih (a := a + 1) (s := (s.ored a b).offer (rspWord 0 0)) (by
      rw [State.offer_byteLen, State.ored_byteLen]; omega)
    refine ⟨t, (issueAll_cons_of_exec hexec _).trans ht, hregs, fun j => ?_⟩
    rw [hbytes, byteAt_offer, byteAt_ored]
    obtain hj | rfl | hj := Nat.lt_trichotomy j a
    · simp [show j ≠ a by omega, show ¬ a ≤ j by omega, show ¬ a + 1 ≤ j by omega]
    · simp
    · obtain ⟨i, rfl⟩ := Nat.exists_eq_add_of_lt hj
      have hi : a + i + 1 - a = i + 1 := by omega
      have hi' : a + i + 1 - (a + 1) = i := by omega
      simp [hi, hi', show a + i + 1 ≠ a by omega, show a ≤ a + i + 1 by omega]

/-- The restore form leaves the buffer's bytes, 0 beyond them, and the given bases. -/
theorem constructRestore_spec {s : State} {src : List Byte} {primes : List Word} (h : Inv s)
    (hsrc : src.length ≤ s.capBytes.toNat) (hlow : 1 ≤ primes.length) (hhigh : primes.length ≤ s.lanes.length) :
    ∃ t, constructRestore src primes s = some t ∧ t.bitCount.toNat = 8 * src.length ∧
      t.byteLen.toNat = src.length ∧ (∀ a, byteAt t a = src.getD a 0) ∧
      t.nlanes.toNat = primes.length ∧ (t.lanes.take primes.length).map Lane.base = primes := by
  have hcapHigh := h.params.capHigh
  have hlen : (BitVec.ofNat 32 src.length).toNat = src.length := Nat.mod_eq_of_lt (by omega)
  obtain ⟨v, hv, hcap, hn, hbases⟩ := setLanes_spec hlow hhigh h.params.lanesHigh
  obtain ⟨t, ht, hregs, hbytes⟩ := issueAll_loadCommands src (a := 0)
    (s := (v.constructed (8 * BitVec.ofNat 32 src.length) (BitVec.ofNat 32 src.length)).offer
      (rspWord 0 (8 * BitVec.ofNat 32 src.length))) (by simp [hlen])
  refine ⟨t, ?_, ?_, ?_, fun a => ?_, ?_, ?_⟩
  · rw [constructRestore, if_pos (by omega), hv, Option.bind_some,
      issueAll_cons_of_exec (exec_bvrestore_of_le (by rw [hlen, hcap]; exact hsrc)), ht]
  · rw [hregs]
    exact (eight_mul_toNat (by omega)).trans (by rw [hlen])
  · rw [hregs]
    exact hlen
  · rw [hbytes, if_pos (Nat.zero_le a)]
    exact BitVec.zero_or
  · rw [hregs]
    exact hn
  · rw [hregs]
    exact hbases

end Sys2Proof.Machine

namespace Sys2Proof

open Sys2Proof.Machine

/-- Settles O52: `BVRESTORE` zeroes the buffer, so each byte ORed in is the byte itself, and the bases were installed
lane by lane before. -/
theorem restoreLoadsTheBuffer : Obligations.RestoreLoadsTheBuffer := by
  unfold Obligations.RestoreLoadsTheBuffer
  intro s src primes h hsrc hlow hhigh
  obtain ⟨t, ht, hbits, hlen, hbytes, hlanes⟩ := constructRestore_spec h hsrc hlow hhigh
  refine ⟨t, ht, hbits, hlen, fun a ha => ?_, hlanes⟩
  rw [hbytes, List.getD_eq_getElem _ _ ha, List.getElem?_eq_getElem ha]

/-- Settles O53: reading leaves only responses, so the restore starts from the invariant, and a byte beyond `BYTELEN`
reads as 0 in both vectors. -/
theorem serialisedVectorRoundTrips : Obligations.SerialisedVectorRoundTrips := by
  unfold Obligations.SerialisedVectorRoundTrips
  intro s primes h hlow hhigh
  have hlength : ((List.range s.byteLen.toNat).map (byteAt s)).length = s.byteLen.toNat := by simp
  obtain ⟨t, ht, hbits, -, hbytes, -⟩ := constructRestore_spec (h.answered _) (hlength.trans_le h.fits) hlow hhigh
  refine ⟨_, _, t, toJSON_eq s, hlength, ⟨rfl, rfl, fun _ => rfl⟩, ht, fun a => ?_, fun hmod => ?_⟩
  · rw [hbytes]
    by_cases ha : a < s.byteLen.toNat
    · simp [ha]
    · have hbeyond : byteAt s a = 0 := Memory.read_of_below _ _ h.memBelow a (Nat.le_of_not_lt ha)
      simp [ha, hbeyond]
  · have hsized := h.sized
    exact BitVec.eq_of_toNat_eq (by omega)

/-- Settles O54: `HLOC` of each active lane, after the hash of the bytes, answers that lane's position. -/
theorem locationsAreTheReducedHashes : Obligations.LocationsAreTheReducedHashes := by
  unfold Obligations.LocationsAreTheReducedHashes
  intro s b h h0
  rw [Ne, ← word_eq_zero_iff] at h0
  obtain ⟨locs, t, ht, hvec, hlocs⟩ := getLocations_spec h h0 b
  exact ⟨locs, t, ht, hvec, by simpa [hashPositions, ← List.map_take, Function.comp_def] using hlocs⟩

/-- Settles O55: the first addition makes its sequence test positive, and the further ones only grow the filter. -/
theorem addedSequencesExist : Obligations.AddedSequencesExist := by
  unfold Obligations.AddedSequencesExist
  intro s b more h h0
  rw [Ne, ← word_eq_zero_iff] at h0
  obtain ⟨t, ht, hadded, hpos⟩ := filterAdd_grows h.toSized h0 b
  obtain ⟨u, hu, hmore⟩ := filterAdds_grow (hadded.bits.sized h.toSized) (hadded.bitCount_ne_zero h0) more
  have hgrown : Grown s u := hadded.trans hmore
  obtain ⟨v, hv⟩ := (filterExists_true_iff (hgrown.bits.sized h.toSized) (hgrown.bitCount_ne_zero h0) b).2
    (hmore.testsPositive_kept hpos)
  exact ⟨t, u, v, ht, hu, hv⟩

/-- Settles O56: the scan tests the windows of `n` bytes in turn, each as `exists` tests it from the same state. -/
theorem substringExistsIsAnyWindow : Obligations.SubstringExistsIsAnyWindow := by
  unfold Obligations.SubstringExistsIsAnyWindow
  intro s d n h h0
  rw [Ne, ← word_eq_zero_iff] at h0
  refine ⟨fun hd => if_pos hd, fun hn hd => ?_⟩
  obtain ⟨t, ht, hw⟩ := issueAll_hashCommands s (d.take n)
  have hlen : (d.take n).length = n := List.length_take_of_le hd
  obtain ⟨ans, u, hu, hvec, hans⟩ := hw.queryThenScan_spec h.toSized h0 (List.ne_nil_of_length_pos (by omega)) (d.drop n)
  rw [List.take_append_drop] at hu hans
  refine ⟨ans, u, by rw [substringExists_of_le hn hd, ht, Option.bind_some, hu], hvec, ?_⟩
  have hrange (i : Nat) : i < (d.drop n).length + 1 ↔ i + n ≤ d.length := by rw [List.length_drop]; omega
  simp only [hans, hlen, hrange, exists_and_left, filterExists_true_iff h.toSized h0]

end Sys2Proof
end

section
/-! The exceptions family: rule R101's table against the commands, one check at a time. A command raises the error the
table gives it (rule R103), and where the table gives none it answers OK (rules R45, R100). -/

namespace Sys2Proof.Machine

/-! ### An OK answer is no error answer (rules R45, R103) -/

theorem okAnswer_raised (s : State) (e : ErrCode) : okAnswer (s.raised e) = none := by
  have hst : e.status ≠ 0 := by cases e <;> decide
  simpa [okAnswer, rspStatus_rspWord] using hst

theorem respond_ne_raise (d : Word) (u : State) (e : ErrCode) (s : State) : respond d u ≠ raise e s := fun h => by
  have hstate : u.offer (rspWord 0 d) = s.raised e := Host.Outcome.next.inj h
  have hanswer : some d = none := by rw [← okAnswer_offer u d, hstate, okAnswer_raised]
  exact Option.some_ne_none d hanswer

theorem withByte_ne_raise {α : Type} {a : Nat} {o : Option α} {k : α → Result} {e : ErrCode} {s : State}
    (hk : ∀ x, k x ≠ raise e s) : withByte a o k ≠ raise e s := by
  cases o with
  | none => nofun
  | some x => exact hk x

/-! ### The table's verdict (rule R101) -/

/-- The result `r` of a command in state `s` follows the verdict of rule R101's table: the error it names is raised,
and with none named no error is. -/
inductive FollowsVerdict (s : State) : Option Nat → Result → Prop where
  | raised (e : ErrCode) : FollowsVerdict s (some e.number) (raise e s)
  | passed {r : Result} (h : ∀ e, r ≠ raise e s) : FollowsVerdict s none r

section

variable {s : State}

theorem FollowsVerdict.respond (d : Word) (u : State) : FollowsVerdict s none (respond d u) :=
  .passed fun e => respond_ne_raise d u e s

theorem FollowsVerdict.withByte {α : Type} {a : Nat} {o : Option α} {d : α → Word} {u : α → State} :
    FollowsVerdict s none (withByte a o fun x => Machine.respond (d x) (u x)) :=
  .passed fun e => withByte_ne_raise fun x => respond_ne_raise (d x) (u x) e s

/-- One check of the table, made by the command in its own words. -/
theorem FollowsVerdict.check {c c' : Prop} [Decidable c] [Decidable c'] (e : ErrCode) {o : Option Nat} {r : Result}
    (hc : c ↔ c') (hr : ¬ c → FollowsVerdict s o r) :
    FollowsVerdict s (if c then some e.number else o) (if c' then raise e s else r) := by
  by_cases h : c
  · rw [if_pos h, if_pos (hc.1 h)]
    exact .raised e
  · rw [if_neg h, if_neg (mt hc.2 h)]
    exact hr h

theorem FollowsVerdict.error {c : Nat} {r : Result} (h : FollowsVerdict s (some c) r) :
    ∃ t, r = .next t ∧ AnswersError s t c := by
  cases h with
  | raised e => exact ⟨_, raise_eq e s, answersError_raised s e⟩

theorem FollowsVerdict.ne_raise {r : Result} (h : FollowsVerdict s none r) (e : ErrCode) : r ≠ raise e s := by
  cases h with
  | passed hr => exact hr e

/-! ### The register numbers (rules R20, R83) -/

variable {n : Byte} {value : Word}

theorem laneArray_numbers (b : Nat) (f : Lane → Word) (ls : List Lane) :
    (ls.mapIdx fun k l => (b + k, f l)).map Prod.fst = List.range' b ls.length :=
  List.ext_getElem (by simp) (by simp)

theorem csrMap_numbers (s : State) :
    (csrMap s).map Prod.fst = List.range' 0 8 ++ List.range' 0x10 s.lanes.length ++
      List.range' 0x20 s.lanes.length ++ List.range' 0x30 s.lanes.length := by
  simp only [csrMap, List.map_append, laneArray_numbers]
  rfl

theorem csrExists_iff {m : Nat} : csrExists s.lanes.length m = true ↔ m ∈ (csrMap s).map Prod.fst := by
  simp only [csrMap_numbers, List.mem_append, List.mem_range'_1, csrExists, Bool.or_eq_true, Bool.and_eq_true,
    decide_eq_true_eq]
  omega

/-- The numbers of the map are those of the registers that can be read. -/
theorem csrExists_eq_isSome (hs : s.lanes.length ≤ 16) :
    csrExists s.lanes.length n.toNat = (csrRead s n).isSome := by
  rw [Bool.eq_iff_iff, csrExists_iff, Option.isSome_iff_exists]
  simp [csrRead_eq_some hs]

theorem csrIsBase_iff (hs : s.lanes.length ≤ 16) :
    csrIsBase s.lanes.length n.toNat = true ↔ ∃ k, k < s.lanes.length ∧ csrOfNumber n = some (.hbase k) := by
  simp only [csrIsBase, Bool.and_eq_true, decide_eq_true_eq, csrOfNumber_hbase]
  constructor
  · rintro ⟨hlow, hhigh⟩
    exact ⟨n.toNat - 0x10, by omega, by omega, by omega⟩
  · rintro ⟨k, hk, -, hn⟩
    omega

theorem csrWritable_iff (hs : s.lanes.length ≤ 16) :
    csrWritable s.lanes.length n.toNat = true ↔
      csrOfNumber n = some .nlanes ∨ ∃ k, k < s.lanes.length ∧ csrOfNumber n = some (.hbase k) := by
  rw [csrWritable, Bool.or_eq_true, csrIsBase_iff hs, csrOfNumber_nlanes, beq_iff_eq]

/-- A number that is not writable names no register, or one that refuses the write. -/
theorem exec_csrw_of_not_writable (hs : s.lanes.length ≤ 16) (h : ¬ csrWritable s.lanes.length n.toNat = true) :
    exec (.csrw n value) s = raise .csr s := by
  rw [csrWritable_iff hs] at h
  cases hc : csrOfNumber n with
  | none => exact exec_csrw_of_none hc
  | some c =>
    refine (exec_csrw_of_some hc).trans (csrWrite_eq_raise ?_ ?_)
    · rintro rfl
      exact h (.inl hc)
    · rintro k rfl
      exact Nat.le_of_not_lt fun hk => h (.inr ⟨k, hk, hc⟩)

/-! ### The commands against the table (rule R101) -/

theorem exec_hloc_followsVerdict (k : Byte) : FollowsVerdict s (errorOf s (.hloc k)) (exec (.hloc k) s) := by
  by_cases hk : k.toNat < s.lanes.length
  · rw [exec_hloc_of_some (List.getElem?_eq_getElem hk), errorOf, if_neg (Nat.not_le.2 hk)]
    exact .check .zeroSize word_eq_zero_iff.symm fun _ => .respond ..
  · rw [exec_hloc_of_none (List.getElem?_eq_none (Nat.le_of_not_lt hk)), errorOf, if_pos (Nat.le_of_not_lt hk)]
    exact .raised .range

theorem exec_csrr_followsVerdict (hs : s.lanes.length ≤ 16) :
    FollowsVerdict s (errorOf s (.csrr n)) (exec (.csrr n) s) := by
  rw [errorOf, csrExists_eq_isSome hs]
  cases h : csrRead s n with
  | none => exact exec_csrr_of_none h ▸ .raised .csr
  | some v => exact exec_csrr_of_some h ▸ .respond v s

theorem exec_csrw_followsVerdict (hs : s.lanes.length ≤ 16) :
    FollowsVerdict s (errorOf s (.csrw n value)) (exec (.csrw n value) s) := by
  by_cases hw : csrWritable s.lanes.length n.toNat = true
  · rw [errorOf, if_pos hw]
    obtain hc | ⟨k, hk, hc⟩ := (csrWritable_iff hs).1 hw
    · have hn : n.toNat = 4 := csrOfNumber_nlanes.1 hc
      rw [exec_csrw_of_some hc]
      exact .check .value (by simp only [State.lanesMax]; omega) fun _ => .respond ..
    · obtain ⟨-, hn⟩ := csrOfNumber_hbase.1 hc
      rw [exec_csrw_hbase hk hc, if_neg (by omega)]
      exact .respond ..
  · rw [errorOf, if_neg hw, exec_csrw_of_not_writable hs hw]
    exact .raised .csr

/-- Each command makes the table's checks, in the table's order, before anything else. -/
theorem exec_followsVerdict (hs : s.lanes.length ≤ 16) (i : Instr) : FollowsVerdict s (errorOf s i) (exec i s) := by
  cases i with
  | bvinit _ | bvrestore _ => exact .check .cap .rfl fun _ => .respond ..
  | bvorb _ _ | bvrdb _ | bvset _ | bvtst _ => exact .check .range .rfl fun _ => .withByte
  | bvsetm _ | bvtstm _ | hset | htst => exact .check .zeroSize word_eq_zero_iff.symm fun _ => .withByte
  | hclr | hpush _ => exact .respond ..
  | hroll _ _ => exact .check .empty word_eq_zero_iff.symm fun _ => .respond ..
  | hloc k => exact exec_hloc_followsVerdict k
  | csrr csr => exact exec_csrr_followsVerdict hs
  | csrw csr value => exact exec_csrw_followsVerdict hs

end

/-- A command that completes and raises no error answers OK. -/
theorem exec_answersOk {i : Instr} {s t : State} (ht : exec i s = .next t) (hne : ∀ e, exec i s ≠ raise e s) :
    ∃ d, d < 2 ^ 32 ∧ AnswersOk s t d ∧ SameSurroundings s t := by
  obtain ⟨hcap, hlanes⟩ := exec_sameParams ht
  obtain ⟨e, rfl⟩ | ⟨u, d, hu, rfl⟩ := exec_cases ht
  · exact absurd ht (hne e)
  · obtain ⟨herr, hrsps, hinbox⟩ := okEffect_sameAnswering hu
    exact ⟨d.toNat, d.isLt, answersOk_offer s u d hrsps herr, hcap, hlanes, hinbox⟩

end Sys2Proof.Machine

namespace Sys2Proof

open Sys2Proof.Machine

/-- Settles O17: the command follows the table's verdict, and raising an error answers it. -/
theorem errorsFollowTheCheckTable : Obligations.ErrorsFollowTheCheckTable := by
  unfold Obligations.ErrorsFollowTheCheckTable
  intro s i c hs hc
  exact (hc ▸ exec_followsVerdict hs i).error

/-- Settles O18: on a sized vector the command completes, and it follows the verdict that no error is raised. -/
theorem commandsWithoutErrorAnswerOk : Obligations.CommandsWithoutErrorAnswerOk := by
  unfold Obligations.CommandsWithoutErrorAnswerOk
  intro s i hs hsized hnone
  obtain ⟨t, ht⟩ := exec_completes hsized i
  obtain ⟨d, hd⟩ := exec_answersOk ht (hnone ▸ exec_followsVerdict hs i).ne_raise
  exact ⟨t, d, ht, hd⟩

end Sys2Proof
end

section
/-! The hazards family: what a roll with a wrong outgoing byte leaves in the lanes (rule R120). -/

namespace Sys2Proof

open Sys2Proof.Machine

/-- Settles O39: the new lanes are the old ones rolled, and a lane that held `c :: a` keeps its base and gets the
shifted hash. -/
theorem wrongOutgoingByteShiftsTheHash : Obligations.WrongOutgoingByteShiftsTheHash := by
  unfold Obligations.WrongOutgoingByteShiftsTheHash
  intro s c a cin cout hcnt hl
  refine ⟨_, exec_hroll_of_ne cin cout fun h => hcnt (word_eq_zero_iff.1 h), ?_⟩
  rw [State.offer_lanes, State.windowRolled_lanes, List.forall_mem_map]
  exact fun l hmem => l.rolled_hash_of_holds c a cin cout (hl l hmem)

end Sys2Proof
end
